-- ==== Sys2Proof/Word.lean ====
section
/-! DEFINITION. The word and byte types and the names of the eight general registers. -/

namespace Sys2Proof

/-- A 16-bit word: every register, memory word, address and instruction (R5, R80). -/
abbrev Word := BitVec 16

/-- An 8-bit character code of the keyboard (R191) or a byte of a program image (R203). -/
abbrev Byte := BitVec 8

/-- The eight general registers R0 to R7 (R20). -/
inductive Reg where
  | r0 | r1 | r2 | r3 | r4 | r5 | r6 | r7
  deriving DecidableEq, Repr

end Sys2Proof
end

