-- ==== Sys2Proof/Syntax.lean ====
section
/-! DEFINITION. The instructions: one constructor per row of spec/opcode_table.json. -/

namespace Sys2Proof

/-- The twenty-four instruction forms (R88). A constructor carries exactly the fields that R82 gives the
form; bits that belong to no field (R86) are no part of it. Immediates and offsets are kept as the
encoded field, and the meaning sign-extends them (R84). -/
inductive Instr where
  /-- BR, R140: `nzp` is the condition mask IR[11:9]. -/
  | br (nzp : BitVec 3) (offset9 : BitVec 9)
  /-- ADD, register form, R130. -/
  | addReg (dr sr1 sr2 : Reg)
  /-- ADD, immediate form, R131. -/
  | addImm (dr sr1 : Reg) (imm5 : BitVec 5)
  /-- LD, R150. -/
  | ld (dr : Reg) (offset9 : BitVec 9)
  /-- ST, R154. -/
  | st (sr : Reg) (offset9 : BitVec 9)
  /-- JSR, R142. -/
  | jsr (offset11 : BitVec 11)
  /-- JSRR, R143. -/
  | jsrr (base : Reg)
  /-- AND, register form, R132. -/
  | andReg (dr sr1 sr2 : Reg)
  /-- AND, immediate form, R133. -/
  | andImm (dr sr1 : Reg) (imm5 : BitVec 5)
  /-- LDR, R152. -/
  | ldr (dr base : Reg) (offset6 : BitVec 6)
  /-- STR, R156. -/
  | str (sr base : Reg) (offset6 : BitVec 6)
  /-- RTI, R144: a legal no-op here. -/
  | rti
  /-- NOT, R134. -/
  | not (dr sr1 : Reg)
  /-- LDI, R151. -/
  | ldi (dr : Reg) (offset9 : BitVec 9)
  /-- STI, R155. -/
  | sti (sr : Reg) (offset9 : BitVec 9)
  /-- JMP, R141; RET is `jmp r7` (R91). -/
  | jmp (base : Reg)
  /-- RES, R145: the reserved opcode, a legal no-op here. -/
  | res
  /-- LEA, R153. -/
  | lea (dr : Reg) (offset9 : BitVec 9)
  /-- TRAP x20, GETC, R161. -/
  | getc
  /-- TRAP x21, OUT, R162. -/
  | out
  /-- TRAP x22, PUTS, R163. -/
  | puts
  /-- TRAP x23, IN, R164. -/
  | in_
  /-- TRAP x24, PUTSP, R165. -/
  | putsp
  /-- TRAP x25, HALT, R166. -/
  | halt
  deriving DecidableEq, Repr

end Sys2Proof
end

