-- ==== Sys2Proof/Decode.lean ====
section
/-! DEFINITION. The decoder, the encoder, and the one table both are written from (R82 to R91).

Opcode numbers and some bit positions are the spec's decisions D1, D2 and D3, general knowledge of the
LC-3 and not the source document's words (log entries 9 to 11). The table stands in this file only, as R85 asks. -/

namespace Sys2Proof

/-- The rows of spec/opcode_table.json, without operands. -/
inductive Form where
  | br | addReg | addImm | ld | st | jsr | jsrr | andReg | andImm | ldr | str | rti
  | not | ldi | sti | jmp | res | lea | getc | out | puts | in_ | putsp | halt
  deriving DecidableEq, Repr

/-- The "match" column of the opcode table: the values of a row's fixed bits (R85). -/
def Form.pattern : Form → Word
  | .br     => 0x0000
  | .addReg => 0x1000
  | .addImm => 0x1020
  | .ld     => 0x2000
  | .st     => 0x3000
  | .jsr    => 0x4800
  | .jsrr   => 0x4000
  | .andReg => 0x5000
  | .andImm => 0x5020
  | .ldr    => 0x6000
  | .str    => 0x7000
  | .rti    => 0x8000
  | .not    => 0x9000
  | .ldi    => 0xA000
  | .sti    => 0xB000
  | .jmp    => 0xC000
  | .res    => 0xD000
  | .lea    => 0xE000
  | .getc   => 0xF020
  | .out    => 0xF021
  | .puts   => 0xF022
  | .in_    => 0xF023
  | .putsp  => 0xF024
  | .halt   => 0xF025

/-- The "mask" column of the opcode table: which bits of a row are fixed (R82, R85). -/
def Form.mask : Form → Word
  | .br     => 0xF000
  | .addReg => 0xF020
  | .addImm => 0xF020
  | .ld     => 0xF000
  | .st     => 0xF000
  | .jsr    => 0xF800
  | .jsrr   => 0xF800
  | .andReg => 0xF020
  | .andImm => 0xF020
  | .ldr    => 0xF000
  | .str    => 0xF000
  | .rti    => 0xF000
  | .not    => 0xF000
  | .ldi    => 0xF000
  | .sti    => 0xF000
  | .jmp    => 0xF000
  | .res    => 0xF000
  | .lea    => 0xF000
  | .getc   => 0xF0FF
  | .out    => 0xF0FF
  | .puts   => 0xF0FF
  | .in_    => 0xF0FF
  | .putsp  => 0xF0FF
  | .halt   => 0xF0FF

/-- The bits of a word that belong to no field of the form, marked `x` in R82 and listed in R86. -/
def Form.ignored : Form → Word
  | .addReg => 0x0018
  | .andReg => 0x0018
  | .not    => 0x003F
  | .jmp    => 0x0E3F
  | .jsrr   => 0x063F
  | .rti    => 0x0FFF
  | .res    => 0x0FFF
  | .getc   => 0x0F00
  | .out    => 0x0F00
  | .puts   => 0x0F00
  | .in_    => 0x0F00
  | .putsp  => 0x0F00
  | .halt   => 0x0F00
  | .br     => 0x0000
  | .addImm => 0x0000
  | .ld     => 0x0000
  | .st     => 0x0000
  | .jsr    => 0x0000
  | .andImm => 0x0000
  | .ldr    => 0x0000
  | .str    => 0x0000
  | .ldi    => 0x0000
  | .sti    => 0x0000
  | .lea    => 0x0000

/-- The table in the order of spec/opcode_table.json. -/
def Form.all : List Form :=
  [.br, .addReg, .addImm, .ld, .st, .jsr, .jsrr, .andReg, .andImm, .ldr, .str, .rti] ++
  [.not, .ldi, .sti, .jmp, .res, .lea, .getc, .out, .puts, .in_, .putsp, .halt]

/-- The test of R88: `(IR & mask) = match`. -/
def Form.accepts (w : Word) (f : Form) : Bool := w &&& f.mask == f.pattern

/-- Field `w[lo+n-1 : lo]` of an instruction word. -/
def bitsAt (w : Word) (lo n : Nat) : BitVec n := w.extractLsb' lo n

/-- The register a 3-bit register field names (R20, R84). -/
def Reg.ofBits (b : BitVec 3) : Reg :=
  match b.toNat with
  | 0 => .r0
  | 1 => .r1
  | 2 => .r2
  | 3 => .r3
  | 4 => .r4
  | 5 => .r5
  | 6 => .r6
  | _ => .r7

/-- The 3-bit number of a register (R20). -/
def Reg.bits : Reg → BitVec 3
  | .r0 => 0
  | .r1 => 1
  | .r2 => 2
  | .r3 => 3
  | .r4 => 4
  | .r5 => 5
  | .r6 => 6
  | .r7 => 7

/-- The register named by the three bits of `w` from bit `lo` up. -/
def regAt (w : Word) (lo : Nat) : Reg := Reg.ofBits (bitsAt w lo 3)

/-- The instruction a word of a given form stands for, its fields at the places of R82. -/
def Form.build (w : Word) : Form → Instr
  | .br     => .br (bitsAt w 9 3) (bitsAt w 0 9)
  | .addReg => .addReg (regAt w 9) (regAt w 6) (regAt w 0)
  | .addImm => .addImm (regAt w 9) (regAt w 6) (bitsAt w 0 5)
  | .ld     => .ld (regAt w 9) (bitsAt w 0 9)
  | .st     => .st (regAt w 9) (bitsAt w 0 9)
  | .jsr    => .jsr (bitsAt w 0 11)
  | .jsrr   => .jsrr (regAt w 6)
  | .andReg => .andReg (regAt w 9) (regAt w 6) (regAt w 0)
  | .andImm => .andImm (regAt w 9) (regAt w 6) (bitsAt w 0 5)
  | .ldr    => .ldr (regAt w 9) (regAt w 6) (bitsAt w 0 6)
  | .str    => .str (regAt w 9) (regAt w 6) (bitsAt w 0 6)
  | .rti    => .rti
  | .not    => .not (regAt w 9) (regAt w 6)
  | .ldi    => .ldi (regAt w 9) (bitsAt w 0 9)
  | .sti    => .sti (regAt w 9) (bitsAt w 0 9)
  | .jmp    => .jmp (regAt w 6)
  | .res    => .res
  | .lea    => .lea (regAt w 9) (bitsAt w 0 9)
  | .getc   => .getc
  | .out    => .out
  | .puts   => .puts
  | .in_    => .in_
  | .putsp  => .putsp
  | .halt   => .halt

/-- Why a word is no instruction. -/
inductive Reject where
  /-- A TRAP whose vector is none of the six (R87, R167): the only undecodable words (R88). -/
  | unlistedTrapVector (vector : BitVec 8)
  deriving DecidableEq, Repr

/-- What the decoder answers. -/
inductive Decoded where
  | instr (i : Instr)
  | reject (r : Reject)
  deriving DecidableEq, Repr

/-- Decoding, total on all 65536 words (R88, R113): the row whose fixed bits the word has. -/
def decode (w : Word) : Decoded :=
  match Form.all.find? (Form.accepts w) with
  | some f => .instr (Form.build w f)
  | none => .reject (.unlistedTrapVector (bitsAt w 0 8))

/-- The host's question about a table row: bit 0 is the least significant bit of the one word. -/
def decodeTableWord (nbits w : Nat) : Option Instr :=
  match decode (BitVec.ofNat 16 (w % 2 ^ nbits)) with
  | .instr i => some i
  | .reject _ => none

/-- The row an instruction belongs to. -/
def Instr.form : Instr → Form
  | .br _ _       => .br
  | .addReg _ _ _ => .addReg
  | .addImm _ _ _ => .addImm
  | .ld _ _       => .ld
  | .st _ _       => .st
  | .jsr _        => .jsr
  | .jsrr _       => .jsrr
  | .andReg _ _ _ => .andReg
  | .andImm _ _ _ => .andImm
  | .ldr _ _ _    => .ldr
  | .str _ _ _    => .str
  | .rti          => .rti
  | .not _ _      => .not
  | .ldi _ _      => .ldi
  | .sti _ _      => .sti
  | .jmp _        => .jmp
  | .res          => .res
  | .lea _ _      => .lea
  | .getc         => .getc
  | .out          => .out
  | .puts         => .puts
  | .in_          => .in_
  | .putsp        => .putsp
  | .halt         => .halt

/-- A field put at its place in a word, all other bits zero. -/
def placeAt {n : Nat} (v : BitVec n) (lo : Nat) : Word := v.setWidth 16 <<< lo

/-- What the conventional assembler writes into the ignored bits: ones in NOT's, zeros elsewhere (R90). -/
def Form.canonicalIgnored : Form → Word
  | .not => 0x003F
  | _ => 0

/-- The operand fields of an instruction at their places (R82). -/
def Instr.operandBits : Instr → Word
  | .br nzp off     => placeAt nzp 9 ||| placeAt off 0
  | .addReg d a b   => placeAt d.bits 9 ||| placeAt a.bits 6 ||| placeAt b.bits 0
  | .addImm d a imm => placeAt d.bits 9 ||| placeAt a.bits 6 ||| placeAt imm 0
  | .ld d off       => placeAt d.bits 9 ||| placeAt off 0
  | .st r off       => placeAt r.bits 9 ||| placeAt off 0
  | .jsr off        => placeAt off 0
  | .jsrr b         => placeAt b.bits 6
  | .andReg d a b   => placeAt d.bits 9 ||| placeAt a.bits 6 ||| placeAt b.bits 0
  | .andImm d a imm => placeAt d.bits 9 ||| placeAt a.bits 6 ||| placeAt imm 0
  | .ldr d b off    => placeAt d.bits 9 ||| placeAt b.bits 6 ||| placeAt off 0
  | .str r b off    => placeAt r.bits 9 ||| placeAt b.bits 6 ||| placeAt off 0
  | .rti            => 0
  | .not d a        => placeAt d.bits 9 ||| placeAt a.bits 6
  | .ldi d off      => placeAt d.bits 9 ||| placeAt off 0
  | .sti r off      => placeAt r.bits 9 ||| placeAt off 0
  | .jmp b          => placeAt b.bits 6
  | .res            => 0
  | .lea d off      => placeAt d.bits 9 ||| placeAt off 0
  | .getc           => 0
  | .out            => 0
  | .puts           => 0
  | .in_            => 0
  | .putsp          => 0
  | .halt           => 0

/-- The word of an instruction, written from the table `decode` reads (R82, R90). -/
def encode (i : Instr) : Word :=
  i.form.pattern ||| i.operandBits ||| i.form.canonicalIgnored

end Sys2Proof
end

