-- ==== Sys2Proof/Config.lean ====
section
/-! DEFINITION. What one configuration of the hardware fixes. The spec leaves no result of an instruction
open, so there is no uninterpreted value here; what the host decides (the start address, the image, the
characters typed) is an argument of boot or a host move. -/

namespace Sys2Proof.Config

/-- START_ADDR where the caller gives none (R7, R206). -/
def startAddr : Word := 0x3000

/-- The number of addressable words (R5, R30). -/
def addressCount : Nat := 65536

/-- What a memory word reads as that nothing has written: zero (R33, R34). -/
def unwrittenWord : Word := 0

end Sys2Proof.Config
end

