-- ==== Sys2Proof/Machine/State.lean ====
section
/-! DEFINITION. Everything the spec gives the machine, as plain data, and the launch state (R20 to R35). -/

namespace Sys2Proof.Machine

/-- R0 to R7 (R20): eight ordinary 16-bit registers, none hardwired. -/
structure RegFile where
  r0 : Word
  r1 : Word
  r2 : Word
  r3 : Word
  r4 : Word
  r5 : Word
  r6 : Word
  r7 : Word
  deriving DecidableEq, Repr

/-- Memory M (R30, R50): a list of (address, word) pairs. The addressable unit is the 16-bit word, so a
cell holds a word and no byte order is chosen (log entry 1). An unlisted address reads as zero (R34). -/
abbrev Memory := List (Nat × Word)

/-- The canonical form: addresses below 65536 and strictly rising, no listed word equal to what an unlisted
address reads as. -/
def Memory.wf : Memory → Bool
  | [] => true
  | (a, v) :: rest =>
    decide (a < Config.addressCount) && decide (v ≠ Config.unwrittenWord)
      && rest.all (fun c => decide (a < c.1)) && Memory.wf rest

/-- Why the core stopped, STOP (R26). -/
inductive StopReason where
  /-- Not stopped. -/
  | none
  /-- The HALT trap ran: the normal end of a run (R166). -/
  | haltTrap
  /-- The fatal decode error (R182), with the offending word and the incremented PC. -/
  | decodeError (ir pc : Word)
  deriving DecidableEq, Repr

/-- The two instructions that read a character and can wait for it (R122). -/
inductive HeldRead where
  | getc
  | in_
  deriving DecidableEq, Repr

/-- The machine. `hold` is the point inside GETC or IN at which a step is held (R119, R122; log entry 4). -/
structure State where
  /-- R0 to R7 (R20). -/
  regs : RegFile
  /-- PC (R22). -/
  pc   : Word
  /-- COND (R24): 16 bits, of which bits [2:0] are used. -/
  cond : Word
  /-- RUN (R26). -/
  run  : Bool
  /-- STOP (R26). -/
  stop : StopReason
  /-- M, with the KBSR cell at 0xFE00 and the KBDR cell at 0xFE02 (R28 to R30). -/
  mem  : Memory
  /-- KBQ: characters the keyboard holds and the core has not taken, oldest first (R31). -/
  kbq  : List Byte
  /-- CON: what the core has written to the console, oldest first (R31). -/
  con  : List Word
  /-- The read at which a step is held, if one is. -/
  hold : Option HeldRead
  deriving DecidableEq, Repr

/-- The situations in which no step is defined. None is an error of the machine: each is a stuck state of
the spec under a name of its own, and stopping there is safe. -/
inductive Fault where
  /-- Raised by `step` when RUN is false: "In Halted the core performs no step" (R110). Safe. -/
  | halted
  /-- Raised by `step` when the core is held and KBQ is empty: no step is enabled until the host delivers a
  character (R122). Safe. -/
  | held
  /-- Raised by PUTS and PUTSP for a walk that never meets a zero word (R218, U4). Safe. No state raises
  it: `Sys2Proof.Laws.stringWalk_reaches_zero` (log entry 7). -/
  | endlessWalk
  deriving DecidableEq, Repr

/-- The reasons for which an instruction has no meaning. -/
inductive Refusal where
  /-- Raised by `exec` for an instruction without a meaning yet. Safe. -/
  | notModelled (mnemonic : String)
  deriving DecidableEq, Repr

/-- All registers zero (R33, R200). -/
def RegFile.zero : RegFile := ⟨0, 0, 0, 0, 0, 0, 0, 0⟩

/-- The state reset itself leaves (R200): everything zero, RUN not yet true. -/
def State.constructed : State where
  regs := RegFile.zero
  pc   := 0
  cond := 0
  run  := false
  stop := .none
  mem  := []
  kbq  := []
  con  := []
  hold := none

/-- The launch state of R33: reset (R200), no image word loaded, PC at the default START_ADDR, RUN true. -/
def State.reset : State :=
  { State.constructed with pc := Config.startAddr, run := true }

end Sys2Proof.Machine
end

