-- ==== Sys2Proof/Machine/Ops.lean ====
section
/-! DEFINITION. The named operations over registers, memory, the keyboard and the console, the fetch, and
the two ways the core stops. -/

namespace Sys2Proof.Machine

/-- `zext_8` (00_scope.md §5): a character code with eight zero bits above it. -/
def zext (c : Byte) : Word := c.setWidth 16

/-! ### General registers (R20) -/

def RegFile.get (f : RegFile) : Reg → Word
  | .r0 => f.r0
  | .r1 => f.r1
  | .r2 => f.r2
  | .r3 => f.r3
  | .r4 => f.r4
  | .r5 => f.r5
  | .r6 => f.r6
  | .r7 => f.r7

def RegFile.set (f : RegFile) (r : Reg) (v : Word) : RegFile :=
  match r with
  | .r0 => { f with r0 := v }
  | .r1 => { f with r1 := v }
  | .r2 => { f with r2 := v }
  | .r3 => { f with r3 := v }
  | .r4 => { f with r4 := v }
  | .r5 => { f with r5 := v }
  | .r6 => { f with r6 := v }
  | .r7 => { f with r7 := v }

/-- `R[r]` read. -/
def State.reg (s : State) (r : Reg) : Word := s.regs.get r

/-- `R[r] <- v`: all 16 bits replaced (R20). -/
def State.setReg (s : State) (r : Reg) (v : Word) : State := { s with regs := s.regs.set r v }

/-- `pc <- target` (R22). -/
def State.setPc (s : State) (target : Word) : State := { s with pc := target }

/-! ### Memory cells (R50) -/

/-- The word stored at an address. -/
def Memory.read : Memory → Nat → Word
  | [], _ => Config.unwrittenWord
  | (k, v) :: rest, a => if k = a then v else Memory.read rest a

/-- The memory without any entry for an address. -/
def Memory.erase (m : Memory) (a : Nat) : Memory := m.filter (fun c => c.1 ≠ a)

/-- The memory with an entry put before the first larger address. -/
def Memory.insert : Memory → Nat → Word → Memory
  | [], a, v => [(a, v)]
  | (k, w) :: rest, a, v =>
    if a < k then (a, v) :: (k, w) :: rest else (k, w) :: Memory.insert rest a v

/-- Storing a word; storing what an unlisted address reads as leaves no entry. -/
def Memory.write (m : Memory) (a : Nat) (v : Word) : Memory :=
  if v = Config.unwrittenWord then Memory.erase m a else Memory.insert (Memory.erase m a) a v

/-- `M[a]`, the raw cell, with no side effect. -/
def State.cell (s : State) (a : Word) : Word := Memory.read s.mem a.toNat

/-- `MemWrite(a, 1, v)` (R54): the cell is replaced, whatever the address, and nothing else changes (R55). -/
def memWrite (a v : Word) (s : State) : State := { s with mem := Memory.write s.mem a.toNat v }

/-! ### The keyboard (R28, R29, R52, R53, R191) -/

/-- KBSR, the keyboard status register (R6). -/
def kbsrAddr : Word := 0xFE00

/-- KBDR, the keyboard data register (R6). -/
def kbdrAddr : Word := 0xFE02

/-- The value the poll writes to KBSR when a character is pending (R6). -/
def kbReady : Word := 0x8000

/-- KeyboardPoll (R53): KeyAvailable, and if it answers true, ReadChar into KBDR. -/
def keyboardPoll (s : State) : State :=
  match s.kbq with
  | [] => memWrite kbsrAddr 0 s
  | c :: rest => memWrite kbdrAddr (zext c) (memWrite kbsrAddr kbReady { s with kbq := rest })

/-- `MemRead(a, 1)` (R52): the word read and the state after it. A read of KBSR polls first (R57). -/
def memRead (a : Word) (s : State) : Word × State :=
  let s' := if a = kbsrAddr then keyboardPoll s else s
  (s'.cell a, s')

/-- The host delivers one character: it goes to the tail of KBQ and nothing else changes (R193). This is a
move of the host, no part of `step` (log entry 8). -/
def State.deliver (c : Byte) (s : State) : State := { s with kbq := s.kbq ++ [c] }

/-! ### The console (R192) -/

/-- `ConsoleWrite(c)`: appended to CON; it always succeeds (R192, R196). -/
def consoleWrite (c : Word) (s : State) : State := { s with con := s.con ++ [c] }

/-- Several characters, in order. -/
def consoleWriteAll (cs : List Word) (s : State) : State := { s with con := s.con ++ cs }

/-! ### Fetch and increment (R111, R112) -/

/-- The PC after the fetch increment, which saturates at 0xFFFF (R112). -/
def incrementPc (pc : Word) : Word := if pc = 0xFFFF then 0xFFFF else pc + 1

/-- Steps 1 and 2 of the cycle: `IR <- MemRead(PC, 1)`, then the increment; `pc` is then PC†. -/
def fetch (s : State) : Word × State :=
  let r := memRead s.pc s
  (r.1, r.2.setPc (incrementPc r.2.pc))

/-! ### Stopping (R166, R182) -/

/-- Halted, with the reason. -/
def stopWith (why : StopReason) (s : State) : State := { s with run := false, stop := why }

/-- `raise DecodeError(IR, PC†)` (R182), the one exception of the machine: nothing is saved or vectored,
RUN is cleared and STOP records the word and PC†; all else stays as it was. `s.pc` is PC†. There is nothing
to return from it (R188). -/
def raiseDecodeError (ir : Word) (s : State) : State := stopWith (.decodeError ir s.pc) s

end Sys2Proof.Machine
end

