-- ==== Sys2Proof/Machine/Flags.lean ====
section
/-! DEFINITION. The condition codes and the flag update (R24, R25, R116, R117). -/

namespace Sys2Proof.Machine

/-- POS, 0b001 (R24, pairing by decision D3; log entry 11). -/
def condPos : Word := 0b001

/-- ZRO, 0b010. -/
def condZro : Word := 0b010

/-- NEG, 0b100. -/
def condNeg : Word := 0b100

/-- The code of a value: ZRO for 0, NEG when bit 15 is set, POS otherwise (R116). -/
def condOf (v : Word) : Word :=
  if v = 0 then condZro else if v.getLsbD 15 then condNeg else condPos

/-- `SetCC(v)` (R116): the whole of COND is replaced. -/
def setCC (v : Word) (s : State) : State := { s with cond := condOf v }

/-- `R[dr] <- v; SetCC(R[dr])`: how the seven flag-updating instructions write their result (R117). -/
def writeResult (dr : Reg) (v : Word) (s : State) : State := setCC v (s.setReg dr v)

/-- BR's test (R140): `(mask & COND[2:0]) != 0`. -/
def branchTaken (nzp : BitVec 3) (s : State) : Bool := nzp &&& s.cond.extractLsb' 0 3 != 0

end Sys2Proof.Machine
end

