-- ==== Sys2Proof/Machine/Operands.lean ====
section
/-! DEFINITION. Sign extension and the three addressing modes (R84, R115, 43_load_store.md). -/

namespace Sys2Proof.Machine

/-- `sext_N(v)` (R115): the N-bit field sign-extended to 16 bits. -/
def sext {n : Nat} (v : BitVec n) : Word := v.signExtend 16

/-- PC-relative: `(PC† + sext(offset)) mod 65536`; also the target of BR and JSR (R118). -/
def pcRelative {n : Nat} (offset : BitVec n) (s : State) : Word := s.pc + sext offset

/-- Base plus offset: `(R[base] + sext_6(offset6)) mod 65536`. -/
def basePlusOffset (base : Reg) (offset6 : BitVec 6) (s : State) : Word := s.reg base + sext offset6

/-- Indirect: the word at the PC-relative address, read through MemRead, and the state after that read. -/
def indirect (offset9 : BitVec 9) (s : State) : Word × State := memRead (pcRelative offset9 s) s

end Sys2Proof.Machine
end

