-- ==== Sys2Proof/Machine/Control.lean ====
section
/-! DEFINITION. BR, JMP, JSR, JSRR, RTI, RES (42_control.md). `s.pc` is PC†. None touches COND or memory. -/

namespace Sys2Proof.Machine

/-- BR (R140): to `PC† + sext_9(offset9)` when the mask meets COND, else on to PC†. -/
def execBr (nzp : BitVec 3) (offset9 : BitVec 9) (s : State) : Host.Outcome State Fault Refusal :=
  .next (if branchTaken nzp s then s.setPc (pcRelative offset9 s) else s)

/-- JMP, and RET when the base is R7 (R141). -/
def execJmp (base : Reg) (s : State) : Host.Outcome State Fault Refusal :=
  .next (s.setPc (s.reg base))

/-- JSR (R142): `R[7] <- PC†; pc <- PC† + sext_11(offset11)`. -/
def execJsr (offset11 : BitVec 11) (s : State) : Host.Outcome State Fault Refusal :=
  .next ((s.setReg .r7 s.pc).setPc (pcRelative offset11 s))

/-- JSRR (R143): `R[7] <- PC†` first, and then the base is read, so `JSRR R7` falls through (decision D8;
log entry 16). -/
def execJsrr (base : Reg) (s : State) : Host.Outcome State Fault Refusal :=
  let linked := s.setReg .r7 s.pc
  .next (linked.setPc (linked.reg base))

/-- RTI (R144): a legal no-op; only the fetch increment has happened. -/
def execRti (s : State) : Host.Outcome State Fault Refusal := .next s

/-- RES (R145): a legal no-op; only the fetch increment has happened. -/
def execRes (s : State) : Host.Outcome State Fault Refusal := .next s

end Sys2Proof.Machine
end

