-- ==== Sys2Proof/Machine/LoadStore.lean ====
section
/-! DEFINITION. LD, LDI, LDR, LEA, ST, STI, STR (43_load_store.md). `s.pc` is PC†. -/

namespace Sys2Proof.Machine

/-- `R[dr] <- MemRead(ea, 1); SetCC(R[dr])`: the end of LD, LDI and LDR. -/
def loadFrom (dr : Reg) (ea : Word) (s : State) : State :=
  let r := memRead ea s
  writeResult dr r.1 r.2

/-- LD (R150). -/
def execLd (dr : Reg) (offset9 : BitVec 9) (s : State) : Host.Outcome State Fault Refusal :=
  .next (loadFrom dr (pcRelative offset9 s) s)

/-- LDI (R151): the pointer read, then the data read; either may poll. -/
def execLdi (dr : Reg) (offset9 : BitVec 9) (s : State) : Host.Outcome State Fault Refusal :=
  let p := indirect offset9 s
  .next (loadFrom dr p.1 p.2)

/-- LDR (R152). -/
def execLdr (dr base : Reg) (offset6 : BitVec 6) (s : State) : Host.Outcome State Fault Refusal :=
  .next (loadFrom dr (basePlusOffset base offset6 s) s)

/-- LEA (R153): the address itself; no memory access, and the flags are set. -/
def execLea (dr : Reg) (offset9 : BitVec 9) (s : State) : Host.Outcome State Fault Refusal :=
  .next (writeResult dr (pcRelative offset9 s) s)

/-- ST (R154). -/
def execSt (sr : Reg) (offset9 : BitVec 9) (s : State) : Host.Outcome State Fault Refusal :=
  .next (memWrite (pcRelative offset9 s) (s.reg sr) s)

/-- STI (R155): the pointer read, which may poll, then the store, which does not. -/
def execSti (sr : Reg) (offset9 : BitVec 9) (s : State) : Host.Outcome State Fault Refusal :=
  let p := indirect offset9 s
  .next (memWrite p.1 (p.2.reg sr) p.2)

/-- STR (R156). -/
def execStr (sr base : Reg) (offset6 : BitVec 6) (s : State) : Host.Outcome State Fault Refusal :=
  .next (memWrite (basePlusOffset base offset6 s) (s.reg sr) s)

end Sys2Proof.Machine
end

