-- ==== Sys2Proof/Machine/Operate.lean ====
section
/-! DEFINITION. ADD, AND, NOT (41_operate.md). The sources are read before the destination is written (R121). -/

namespace Sys2Proof.Machine

/-- ADD, register form (R130). -/
def execAddReg (dr sr1 sr2 : Reg) (s : State) : Host.Outcome State Fault Refusal :=
  .next (writeResult dr (s.reg sr1 + s.reg sr2) s)

/-- ADD, immediate form (R131). -/
def execAddImm (dr sr1 : Reg) (imm5 : BitVec 5) (s : State) : Host.Outcome State Fault Refusal :=
  .next (writeResult dr (s.reg sr1 + sext imm5) s)

/-- AND, register form (R132). -/
def execAndReg (dr sr1 sr2 : Reg) (s : State) : Host.Outcome State Fault Refusal :=
  .next (writeResult dr (s.reg sr1 &&& s.reg sr2) s)

/-- AND, immediate form: the immediate is sign-extended, not zero-extended (R133). -/
def execAndImm (dr sr1 : Reg) (imm5 : BitVec 5) (s : State) : Host.Outcome State Fault Refusal :=
  .next (writeResult dr (s.reg sr1 &&& sext imm5) s)

/-- NOT (R134). -/
def execNot (dr sr1 : Reg) (s : State) : Host.Outcome State Fault Refusal :=
  .next (writeResult dr (~~~ s.reg sr1) s)

end Sys2Proof.Machine
end

