-- ==== Sys2Proof/Machine/Trap.lean ====
section
/-! DEFINITION. The six trap services (44_trap.md). The core performs them itself, inside the step: no
register but R0 is written, COND and PC† stay, nothing is saved (R168). -/

namespace Sys2Proof.Machine

/-- The character code of "newline" (R8, decision D11; log entry 19). -/
def newline : Word := 0x000A

/-- IN's prompt, "Input a character: " in ASCII (R164). -/
def prompt : List Word :=
  [0x49, 0x6E, 0x70, 0x75, 0x74, 0x20, 0x61, 0x20, 0x63, 0x68] ++
  [0x61, 0x72, 0x61, 0x63, 0x74, 0x65, 0x72, 0x3A, 0x20]

/-- HALT's line, "HALT" and a newline (R166). -/
def haltLine : List Word := [0x48, 0x41, 0x4C, 0x54, newline]

/-! ### Reading a character (R122, R161, R164, R191) -/

/-- What GETC and IN do once ReadChar has answered `c`: R0 gets the code, and IN echoes it. -/
def finishRead (h : HeldRead) (c : Byte) (s : State) : State :=
  match h with
  | .getc => s.setReg .r0 (zext c)
  | .in_ => consoleWrite (zext c) (s.setReg .r0 (zext c))

/-- `ReadChar()` and what follows it: the head of KBQ is taken, or the core is held there (R122, R191). -/
def readCharThen (h : HeldRead) (s : State) : State :=
  match s.kbq with
  | [] => { s with hold := some h }
  | c :: rest => finishRead h c { s with kbq := rest, hold := none }

/-- A held core: it goes on once a character is pending, and has no step until then (R122). -/
def resumeRead (h : HeldRead) (s : State) : Host.Outcome State Fault Refusal :=
  match s.kbq with
  | [] => .fault .held
  | _ :: _ => .next (readCharThen h s)

/-- GETC (R161): no echo. -/
def execGetc (s : State) : Host.Outcome State Fault Refusal :=
  .next (readCharThen .getc s)

/-- IN (R164): the prompt is written before the core can be held. -/
def execIn (s : State) : Host.Outcome State Fault Refusal :=
  .next (readCharThen .in_ (consoleWriteAll prompt s))

/-! ### Writing characters (R162, R163, R165) -/

/-- OUT (R162): the low byte of R0. -/
def execOut (s : State) : Host.Outcome State Fault Refusal :=
  .next (consoleWrite (zext ((s.reg .r0).extractLsb' 0 8)) s)

/-- The loop of PUTS and PUTSP (R163, R165): read the word at `a`, stop at a zero word, else write its
characters and go on to `a + 1` modulo 65536. `none` when `fuel` reads have met no zero word. -/
def stringWalk (chars : Word → List Word) : Nat → Word → State → Option State
  | 0, _, _ => none
  | fuel + 1, a, s =>
    let r := memRead a s
    if r.1 = 0 then some r.2
    else stringWalk chars fuel (a + 1) (consoleWriteAll (chars r.1) r.2)

/-- Reads enough for every walk: 65536 for each pending character, each of which one pass over KBSR takes,
and 65536 more for the pass that then reads zero there (log entry 7). -/
def walkFuel (s : State) : Nat := (s.kbq.length + 1) * 65536

/-- The walk from R0 and the trailing newline (R163, R165). -/
def writeString (chars : Word → List Word) (s : State) : Host.Outcome State Fault Refusal :=
  match stringWalk chars (walkFuel s) (s.reg .r0) s with
  | some s' => .next (consoleWrite newline s')
  | none => .fault .endlessWalk

/-- PUTS passes the whole word as one character code (R163, decision D10). -/
def putsChars (w : Word) : List Word := [w]

/-- PUTSP: the low byte always, then the high byte if it is nonzero (R165, decision D21). -/
def putspChars (w : Word) : List Word :=
  zext (w.extractLsb' 0 8) ::
    (if w.extractLsb' 8 8 = 0 then [] else [zext (w.extractLsb' 8 8)])

/-- PUTS (R163). -/
def execPuts (s : State) : Host.Outcome State Fault Refusal := writeString putsChars s

/-- PUTSP (R165). -/
def execPutsp (s : State) : Host.Outcome State Fault Refusal := writeString putspChars s

/-! ### HALT (R166) -/

/-- HALT: the line is written and the core stops; the PC stays PC†. -/
def execHalt (s : State) : Host.Outcome State Fault Refusal :=
  .next (stopWith .haltTrap (consoleWriteAll haltLine s))

end Sys2Proof.Machine
end

