-- ==== Sys2Proof/Machine/Step.lean ====
section
/-! DEFINITION. One step of the core (R9, R110 to R114, R119, R122). -/

namespace Sys2Proof.Machine

/-- One step. Halted, there is none (R110). Held, the read goes on where it stopped (R122). Else fetch,
increment, decode, and the instruction's meaning, or the fatal decode error (R182), which is taken as a
state: RUN false and STOP set. -/
def step (s : State) : Host.Outcome State Fault Refusal :=
  if s.run then
    match s.hold with
    | some h => resumeRead h s
    | none =>
      match decode (fetch s).1 with
      | .instr i => exec i (fetch s).2
      | .reject _ => .next (raiseDecodeError (fetch s).1 (fetch s).2)
  else .fault .halted

/-- `s` with a word where `step` fetches next: M[PC]. The fetch also needs a running core with no read in
progress, which the state at reset is; for any other state RUN, STOP and the hold are put so (log entry 3). -/
def State.withFetchWord (s : State) (nbits w : Nat) : State :=
  { memWrite s.pc (BitVec.ofNat 16 (w % 2 ^ nbits)) s with run := true, stop := .none, hold := none }

end Sys2Proof.Machine
end

