-- ==== Sys2Proof/WellFormed.lean ====
section
/-! DEFINITION. Well-formedness of what comes from outside the machine: the program image.

An instruction needs no check: each field of `Instr` has exactly the width that R82 and R84 give it and
every value of every field is legal, so an ill-formed instruction cannot be written. The one input the
spec calls malformed is a program image (R203 to R205); the three checks are below. -/

namespace Sys2Proof

/-- A program image: the byte sequence of R203. -/
abbrev Image := List Byte

/-- A file with fewer than 2 bytes is malformed (R204). -/
def Image.longEnough (b : Image) : Bool := 2 ≤ b.length

/-- A trailing odd byte is malformed (R204). -/
def Image.wholeWords (b : Image) : Bool := b.length % 2 = 0

/-- The load origin, the first two bytes, high byte first (R203). -/
def Image.origin : Image → Word
  | hi :: lo :: _ => hi ++ lo
  | _ => 0

/-- No word of the image would land beyond 0xFFFF: `origin + (n/2 - 1) ≤ 65536` (R205). -/
def Image.insideMemory (b : Image) : Bool :=
  (Image.origin b).toNat + (b.length / 2 - 1) ≤ Config.addressCount

/-- The image passes all three checks. -/
def Image.wf (b : Image) : Bool :=
  Image.longEnough b && Image.wholeWords b && Image.insideMemory b

end Sys2Proof
end

