-- ==== Sys2Proof/Machine/Boot.lean ====
section
/-! DEFINITION. Boot, as the host performs it before the first step (R200 to R206): reset, the image into
memory, PC at START_ADDR, RUN true. -/

namespace Sys2Proof.Machine

/-- Why there is no launch state. -/
inductive LoadError where
  /-- Fewer than 2 bytes or an odd number of them (R204). -/
  | malformed
  /-- A word would land beyond 0xFFFF, which the source leaves undefined: refused (R205, U1). -/
  | pastTop
  deriving DecidableEq, Repr

/-- What boot answers: a launch state, or none. -/
inductive Launch where
  | ready (s : State)
  | failed (e : LoadError)
  deriving DecidableEq, Repr

/-- What loading answers. -/
inductive Loaded where
  | memory (m : Memory)
  | failed (e : LoadError)
  deriving DecidableEq, Repr

/-- The words of a byte sequence, big-endian (R203). -/
def bigEndianWords : List Byte → List Word
  | hi :: lo :: rest => (hi ++ lo) :: bigEndianWords rest
  | _ => []

/-- Words stored at consecutive addresses, with the plain write of R54. -/
def storeWords : List Word → Nat → Memory → Memory
  | [], _, m => m
  | w :: ws, a, m => storeWords ws (a + 1) (Memory.write m a w)

/-- One image into memory (R203), or the reason it is refused (R204, R205). -/
def loadImage (b : Image) (m : Memory) : Loaded :=
  if Image.longEnough b && Image.wholeWords b then
    if Image.insideMemory b then
      .memory (storeWords (bigEndianWords (b.drop 2)) (Image.origin b).toNat m)
    else .failed .pastTop
  else .failed .malformed

/-- Several images in order, later ones over earlier ones (R205, U17). -/
def loadImages : List Image → Memory → Loaded
  | [], m => .memory m
  | b :: bs, m =>
    match loadImage b m with
    | .memory m' => loadImages bs m'
    | .failed e => .failed e

/-- The boot sequence of R202 with the characters the keyboard already holds (R33, decision D20). -/
def boot (images : List Image) (startAddr : Word) (keys : List Byte) : Launch :=
  match loadImages images State.constructed.mem with
  | .memory m => .ready { State.constructed with mem := m, pc := startAddr, run := true, kbq := keys }
  | .failed e => .failed e

end Sys2Proof.Machine
end

