-- ==== Sys2Proof/Safety.lean ====
section
/-! DEFINITION. The terms in which claims are made: what a step keeps, what a read leaves, the tables of which
instruction may change what, the invariant of the machine, its reachable states, and safety. -/

namespace Sys2Proof.Machine

/-! ### Frames -/

/-- Every register but the listed ones is unchanged. -/
def KeepsRegs (but : List Reg) (s t : State) : Prop := ∀ r, r ∉ but → t.reg r = s.reg r

/-- Every word of memory is unchanged. -/
def KeepsMemory (s t : State) : Prop := ∀ a : Nat, Memory.read t.mem a = Memory.read s.mem a

/-- RUN, STOP and the hold are unchanged. -/
def KeepsRun (s t : State) : Prop := t.run = s.run ∧ t.stop = s.stop ∧ t.hold = s.hold

/-- The keyboard queue and the console are unchanged. -/
def KeepsDevices (s t : State) : Prop := t.kbq = s.kbq ∧ t.con = s.con

/-! ### Reading memory -/

/-- What a keyboard poll leaves in memory and in KBQ (R53). -/
def AfterPoll (s t : State) : Prop :=
  match s.kbq with
  | [] => t.kbq = [] ∧ ∀ a : Nat, Memory.read t.mem a = if a = 0xFE00 then 0 else Memory.read s.mem a
  | c :: rest =>
    t.kbq = rest ∧
      ∀ a : Nat, Memory.read t.mem a =
        if a = 0xFE00 then 0x8000
        else if a = 0xFE02 then BitVec.ofNat 16 c.toNat
        else Memory.read s.mem a

/-- Reading address `a` in `s` gives `v`, and memory and KBQ are then those of `t` (R52, R56, R57). -/
def AfterRead (s : State) (a v : Word) (t : State) : Prop :=
  v = Memory.read t.mem a.toNat ∧
    if a = 0xFE00 then AfterPoll s t else KeepsMemory s t ∧ t.kbq = s.kbq

/-! ### Results and flags -/

/-- The condition code of a value: 0 is ZRO, 0x8000 to 0xFFFF is NEG, 0x0001 to 0x7FFF is POS (R116). -/
def flagsOf (v : Word) : Word :=
  if v.toNat = 0 then 0b010 else if 0x8000 ≤ v.toNat then 0b100 else 0b001

/-- `dr` holds `v`, COND reports `v`, and every other register, the PC, RUN, STOP, the hold and the console
are unchanged. -/
def WritesResult (dr : Reg) (v : Word) (s t : State) : Prop :=
  t.reg dr = v ∧ t.cond = flagsOf v ∧ KeepsRegs [dr] s t ∧ t.pc = s.pc ∧ KeepsRun s t ∧ t.con = s.con

/-! ### Finishing a character read -/

/-- What a GETC or IN leaves that has taken `c` and left `rest` pending (R161, R164): R0 holds the code, IN alone has
echoed it, no read is held, and all else is unchanged. -/
def FinishesRead (h : HeldRead) (c : Byte) (rest : List Byte) (s t : State) : Prop :=
  t.reg .r0 = BitVec.ofNat 16 c.toNat ∧ KeepsRegs [.r0] s t ∧ t.kbq = rest ∧ t.hold = none ∧
  t.con = s.con ++ (if h = .in_ then [BitVec.ofNat 16 c.toNat] else []) ∧
  t.pc = s.pc ∧ t.cond = s.cond ∧ t.run = s.run ∧ t.stop = s.stop ∧ KeepsMemory s t

/-! ### Which instruction may change what -/

/-- The general registers an instruction writes: the "writes" column of the table of R21. -/
def writtenRegs : Instr → List Reg
  | .br _ _       => []
  | .addReg d _ _ => [d]
  | .addImm d _ _ => [d]
  | .ld d _       => [d]
  | .st _ _       => []
  | .jsr _        => [.r7]
  | .jsrr _       => [.r7]
  | .andReg d _ _ => [d]
  | .andImm d _ _ => [d]
  | .ldr d _ _    => [d]
  | .str _ _ _    => []
  | .rti          => []
  | .not d _      => [d]
  | .ldi d _      => [d]
  | .sti _ _      => []
  | .jmp _        => []
  | .res          => []
  | .lea d _      => [d]
  | .getc         => [.r0]
  | .out          => []
  | .puts         => []
  | .in_          => [.r0]
  | .putsp        => []
  | .halt         => []

/-- The destination of the seven flag-updating instructions (R117), and `none` for every other. -/
def flagSource : Instr → Option Reg
  | .addReg d _ _ => some d
  | .addImm d _ _ => some d
  | .andReg d _ _ => some d
  | .andImm d _ _ => some d
  | .not d _      => some d
  | .ld d _       => some d
  | .ldi d _      => some d
  | .ldr d _ _    => some d
  | .lea d _      => some d
  | .br _ _       => none
  | .st _ _       => none
  | .jsr _        => none
  | .jsrr _       => none
  | .str _ _ _    => none
  | .rti          => none
  | .sti _ _      => none
  | .jmp _        => none
  | .res          => none
  | .getc         => none
  | .out          => none
  | .puts         => none
  | .in_          => none
  | .putsp        => none
  | .halt         => none

/-- The instructions that write the PC beyond the fetch increment (R23). -/
def transfersControl : Instr → Bool
  | .br _ _ => true
  | .jmp _ => true
  | .jsr _ => true
  | .jsrr _ => true
  | .addReg _ _ _ => false
  | .addImm _ _ _ => false
  | .ld _ _ => false
  | .st _ _ => false
  | .andReg _ _ _ => false
  | .andImm _ _ _ => false
  | .ldr _ _ _ => false
  | .str _ _ _ => false
  | .rti => false
  | .not _ _ => false
  | .ldi _ _ => false
  | .sti _ _ => false
  | .res => false
  | .lea _ _ => false
  | .getc => false
  | .out => false
  | .puts => false
  | .in_ => false
  | .putsp => false
  | .halt => false

/-- What an instruction does with memory: nothing, reads that may poll, or a store (R30, R65). -/
inductive MemoryUse where
  | none
  | reads
  | stores
  deriving DecidableEq, Repr

def memoryUse : Instr → MemoryUse
  | .ld _ _ => .reads
  | .ldi _ _ => .reads
  | .ldr _ _ _ => .reads
  | .puts => .reads
  | .putsp => .reads
  | .st _ _ => .stores
  | .sti _ _ => .stores
  | .str _ _ _ => .stores
  | .br _ _ => .none
  | .addReg _ _ _ => .none
  | .addImm _ _ _ => .none
  | .jsr _ => .none
  | .jsrr _ => .none
  | .andReg _ _ _ => .none
  | .andImm _ _ _ => .none
  | .rti => .none
  | .not _ _ => .none
  | .jmp _ => .none
  | .res => .none
  | .lea _ _ => .none
  | .getc => .none
  | .out => .none
  | .in_ => .none
  | .halt => .none

/-! ### The string walk without a bound (R163, R165) -/

/-- The loop of PUTS and PUTSP as the spec writes it: from address `a` and state `s` it ends in `t`. -/
inductive Walks (chars : Word → List Word) : Word → State → State → Prop where
  /-- A zero word ends the walk. -/
  | stop {a : Word} {s : State} : (memRead a s).1 = 0 → Walks chars a s (memRead a s).2
  /-- Any other word is written, and the walk goes on at `a + 1` modulo 65536. -/
  | more {a : Word} {s t : State} : (memRead a s).1 ≠ 0 →
      Walks chars (a + 1) (consoleWriteAll (chars (memRead a s).1) (memRead a s).2) t → Walks chars a s t

/-! ### The invariant and the reachable states -/

/-- COND holds 0 or one of the three one-hot codes (R25). -/
def CondLegal (c : Word) : Prop := c = 0 ∨ c = 0b001 ∨ c = 0b010 ∨ c = 0b100

/-- Memory is canonical, COND is legal (R25), the core runs exactly while no stop reason is recorded (R26), and
only a running core is held (R194). -/
structure State.Inv (s : State) : Prop where
  memory : Memory.wf s.mem = true
  cond   : CondLegal s.cond
  run    : s.run = true ↔ s.stop = .none
  hold   : s.hold ≠ none → s.run = true

/-- The states of a run: launched by boot, then steps of the core and deliveries of the host (R202, R193). -/
inductive Reachable : State → Prop where
  | launched {images : List Image} {start : Word} {keys : List Byte} {s : State} :
      boot images start keys = .ready s → Reachable s
  | stepped {s t : State} : Reachable s → step s = .next t → Reachable t
  | delivered {s : State} (c : Byte) : Reachable s → Reachable (s.deliver c)

/-! ### Safety -/

/-- A state is safe when it records no decode error: "a claim that a program runs correctly must exclude it"
(R182). A halted state whose STOP is HaltTrap is a normal end (R120). -/
def State.Safe (s : State) : Prop := ∀ ir pc, s.stop ≠ .decodeError ir pc

/-- A run is safe when every state reached from `s` by steps and deliveries is safe. -/
inductive LeadsTo : State → State → Prop where
  | refl (s : State) : LeadsTo s s
  | stepped {s t u : State} : LeadsTo s t → step t = .next u → LeadsTo s u
  | delivered {s t : State} (c : Byte) : LeadsTo s t → LeadsTo s (t.deliver c)

def SafeRun (s : State) : Prop := ∀ t, LeadsTo s t → t.Safe

/-! ### Comparing two runs -/

/-- The same outcome, its state changed by `f`: for claims that compare two runs. -/
def mapNext (f : State → State) : Host.Outcome State Fault Refusal → Host.Outcome State Fault Refusal
  | .next s => .next (f s)
  | .fault r => .fault r
  | .refused r => .refused r

/-- The state with something written to the console before all that is there. -/
def State.withEarlierOutput (earlier : List Word) (s : State) : State := { s with con := earlier ++ s.con }

end Sys2Proof.Machine
end

