-- ==== Sys2Proof/Certificates/Slice0/Obligations.lean ====
section
/-! DEFINITION. The statements for the provers: one `def Obligations.<Name> : Prop` each. In every statement about
`exec`, `s.pc` is PC†, the incremented PC (R22). -/

open Sys2Proof Sys2Proof.Machine

/-! ## Encoding -/

/-- The words of 95_test_vectors.md, one or more for every family, decode as written there. They rest on the
opcode numbers and field places of D1 and D2, which the spec marks as general knowledge (log entries 9, 10). -/
def Obligations.SampleWordsDecodeAsWritten : Prop :=
  decode 0x1042 = .instr (.addReg .r0 .r1 .r2) ∧ decode 0x127F = .instr (.addImm .r1 .r1 0x1F) ∧
  decode 0x5642 = .instr (.andReg .r3 .r1 .r2) ∧ decode 0x506F = .instr (.andImm .r0 .r1 0x0F) ∧
  decode 0x9D40 = .instr (.not .r6 .r5) ∧ decode 0x03FD = .instr (.br 0b001 0x1FD) ∧
  decode 0xCFFF = .instr (.jmp .r7) ∧ decode 0x4802 = .instr (.jsr 2) ∧ decode 0x46BF = .instr (.jsrr .r2) ∧
  decode 0x8FFF = .instr .rti ∧ decode 0xDABC = .instr .res ∧ decode 0x2403 = .instr (.ld .r2 3) ∧
  decode 0xA404 = .instr (.ldi .r2 4) ∧ decode 0x667F = .instr (.ldr .r3 .r1 0x3F) ∧
  decode 0xE209 = .instr (.lea .r1 9) ∧ decode 0x3806 = .instr (.st .r4 6) ∧
  decode 0xBC06 = .instr (.sti .r6 6) ∧ decode 0x7842 = .instr (.str .r4 .r1 2) ∧
  decode 0xF120 = .instr .getc ∧ decode 0xFF21 = .instr .out ∧ decode 0xF022 = .instr .puts ∧
  decode 0xFA23 = .instr .in_ ∧ decode 0xF024 = .instr .putsp ∧ decode 0xFF25 = .instr .halt ∧
  decode 0xF026 = .reject (.unlistedTrapVector 0x26)

/-- Every instruction, with every value of every operand, decodes from its own encoding. -/
def Obligations.DecodeOfEncodeIsTheInstruction : Prop :=
  ∀ i : Instr, decode (encode i) = .instr i

/-- The other direction: a word that decodes is the encoding of its instruction, but for the bits that R86 says
are ignored. -/
def Obligations.EncodeOfDecodeAgreesOnFieldBits : Prop :=
  ∀ (w : Word) (i : Instr), decode w = .instr i →
    encode i &&& ~~~ i.form.ignored = w &&& ~~~ i.form.ignored

/-- Every row of the opcode table with its match, its mask and the places of its fields, whatever the ignored bits
hold. Opcode numbers and some places are D1, D2 and D3 (log entries 9 to 11), the ignored bits D4 (log entry 12). -/
def Obligations.FieldsStandWhereTheTableSays : Prop :=
  (∀ r : BitVec 3, (Reg.ofBits r).bits = r) ∧
  (Reg.bits .r0 = 0 ∧ Reg.bits .r1 = 1 ∧ Reg.bits .r2 = 2 ∧ Reg.bits .r3 = 3 ∧
    Reg.bits .r4 = 4 ∧ Reg.bits .r5 = 5 ∧ Reg.bits .r6 = 6 ∧ Reg.bits .r7 = 7) ∧
  ∀ w : Word,
    let rHi := Reg.ofBits (w.extractLsb' 9 3)
    let rMid := Reg.ofBits (w.extractLsb' 6 3)
    let rLo := Reg.ofBits (w.extractLsb' 0 3)
    let off9 := w.extractLsb' 0 9
    (w &&& 0xF000 = 0x0000 → decode w = .instr (.br (w.extractLsb' 9 3) off9)) ∧
    (w &&& 0xF020 = 0x1000 → decode w = .instr (.addReg rHi rMid rLo)) ∧
    (w &&& 0xF020 = 0x1020 → decode w = .instr (.addImm rHi rMid (w.extractLsb' 0 5))) ∧
    (w &&& 0xF000 = 0x2000 → decode w = .instr (.ld rHi off9)) ∧
    (w &&& 0xF000 = 0x3000 → decode w = .instr (.st rHi off9)) ∧
    (w &&& 0xF800 = 0x4800 → decode w = .instr (.jsr (w.extractLsb' 0 11))) ∧
    (w &&& 0xF800 = 0x4000 → decode w = .instr (.jsrr rMid)) ∧
    (w &&& 0xF020 = 0x5000 → decode w = .instr (.andReg rHi rMid rLo)) ∧
    (w &&& 0xF020 = 0x5020 → decode w = .instr (.andImm rHi rMid (w.extractLsb' 0 5))) ∧
    (w &&& 0xF000 = 0x6000 → decode w = .instr (.ldr rHi rMid (w.extractLsb' 0 6))) ∧
    (w &&& 0xF000 = 0x7000 → decode w = .instr (.str rHi rMid (w.extractLsb' 0 6))) ∧
    (w &&& 0xF000 = 0x8000 → decode w = .instr .rti) ∧
    (w &&& 0xF000 = 0x9000 → decode w = .instr (.not rHi rMid)) ∧
    (w &&& 0xF000 = 0xA000 → decode w = .instr (.ldi rHi off9)) ∧
    (w &&& 0xF000 = 0xB000 → decode w = .instr (.sti rHi off9)) ∧
    (w &&& 0xF000 = 0xC000 → decode w = .instr (.jmp rMid)) ∧
    (w &&& 0xF000 = 0xD000 → decode w = .instr .res) ∧
    (w &&& 0xF000 = 0xE000 → decode w = .instr (.lea rHi off9)) ∧
    (w &&& 0xF0FF = 0xF020 → decode w = .instr .getc) ∧
    (w &&& 0xF0FF = 0xF021 → decode w = .instr .out) ∧
    (w &&& 0xF0FF = 0xF022 → decode w = .instr .puts) ∧
    (w &&& 0xF0FF = 0xF023 → decode w = .instr .in_) ∧
    (w &&& 0xF0FF = 0xF024 → decode w = .instr .putsp) ∧
    (w &&& 0xF0FF = 0xF025 → decode w = .instr .halt)

/-- The words that decode to nothing are exactly the TRAPs whose vector is none of 0x20 to 0x25 (decision D5;
log entry 13). -/
def Obligations.OnlyUnlistedTrapVectorsAreRejected : Prop :=
  ∀ w : Word, (∃ r, decode w = .reject r) ↔
    (w.toNat / 4096 = 15 ∧ (w.toNat % 256 < 0x20 ∨ 0x25 < w.toNat % 256))

/-! ## The cycle -/

/-- R111, R112 and R114: the word at PC is read through MemRead, the PC goes up by one but not past 0xFFFF, and the
decoded instruction runs on that state; a word that decodes to nothing has had the same increment. That the step then
answers a next state is the model's reading of R182 (log entry 6). -/
def Obligations.StepFetchesIncrementsAndRuns : Prop :=
  ∀ s : State, s.run = true → s.hold = none →
    let ir := (memRead s.pc s).1
    let s' := { (memRead s.pc s).2 with pc := if s.pc = 0xFFFF then 0xFFFF else s.pc + 1 }
    (∀ i, decode ir = .instr i → step s = exec i s') ∧
    (∀ r, decode ir = .reject r → ∃ t, step s = .next t ∧ t.pc = s'.pc)

/-- R182: an undecodable word stops the core with the word and PC† recorded; registers, COND, the console and
memory are as the fetch left them, and no step follows. -/
def Obligations.DecodeErrorStopsTheCore : Prop :=
  ∀ (s : State) (r : Reject), s.run = true → s.hold = none → decode (memRead s.pc s).1 = .reject r →
    ∃ t, step s = .next t ∧ t.run = false ∧
      t.stop = .decodeError (memRead s.pc s).1 t.pc ∧
      t.pc = (if s.pc = 0xFFFF then 0xFFFF else s.pc + 1) ∧
      KeepsRegs [] s t ∧ t.cond = s.cond ∧ t.con = s.con ∧ t.hold = s.hold ∧
      AfterRead s s.pc (memRead s.pc s).1 t ∧ ∀ u, step t ≠ .next u

/-- R110: in Halted there is no step; Halted is entered from Running by the HALT trap or by a word outside the
valid set, and in no other way. -/
def Obligations.HaltedIsEnteredByHaltOrDecodeErrorAndNeverLeft : Prop :=
  (∀ s t : State, s.run = false → step s ≠ .next t) ∧
  (∀ s t : State, step s = .next t →
    (t.run = false ↔
      s.hold = none ∧
        (decode (memRead s.pc s).1 = .instr .halt ∨ ∃ r, decode (memRead s.pc s).1 = .reject r)))

/-- A step is defined exactly when the core runs and is not held with an empty keyboard queue. Where it is not, the
model stops under the name of the reason, `halted` or `held`, which is the model's choice (log entry 5). That every
PUTS and PUTSP step completes is the model's reading of R119 and R193 against R218 (log entry 7), and that a GETC or IN
with an empty queue steps into the held state is its choice (log entry 4). -/
def Obligations.StepIsDefinedUnlessHaltedOrHeld : Prop :=
  ∀ s : State,
    (s.run = true → (s.hold = none ∨ s.kbq ≠ []) → ∃ t, step s = .next t) ∧
    (s.run = true → s.hold ≠ none → s.kbq = [] → step s = .fault .held) ∧
    (s.run = false → step s = .fault .halted)

/-- R23: after a step whose word decodes to none of BR, JMP, JSR and JSRR, a decode error included, the PC is the
saturated increment. -/
def Obligations.OnlyControlInstructionsWriteThePc : Prop :=
  ∀ s t : State, s.hold = none → step s = .next t →
    (∀ i, decode (memRead s.pc s).1 = .instr i → transfersControl i = false) →
    t.pc = if s.pc = 0xFFFF then 0xFFFF else s.pc + 1

/-- R57, the spec's own consequence: a fetch from KBSR polls, and what it fetches does nothing more. -/
def Obligations.FetchFromKbsrPollsAndDoesNothingElse : Prop :=
  ∀ s : State, s.run = true → s.hold = none → s.pc = 0xFE00 →
    ∃ t, step s = .next t ∧ AfterPoll s t ∧ t.pc = 0xFE01 ∧
      KeepsRegs [] s t ∧ t.cond = s.cond ∧ KeepsRun s t ∧ t.con = s.con

/-! ## ADD, AND, NOT -/

/-- R130: the sum modulo 65536, COND from it, and nothing else. -/
def Obligations.AddRegisterGivesTheSum : Prop :=
  ∀ (dr sr1 sr2 : Reg) (s : State), ∃ t, exec (.addReg dr sr1 sr2) s = .next t ∧
    WritesResult dr (BitVec.ofNat 16 ((s.reg sr1).toNat + (s.reg sr2).toNat)) s t ∧
    KeepsMemory s t ∧ t.kbq = s.kbq

/-- R131: the immediate counts as the signed number it denotes, -16 to 15. -/
def Obligations.AddImmediateGivesTheSum : Prop :=
  ∀ (dr sr1 : Reg) (imm5 : BitVec 5) (s : State), ∃ t, exec (.addImm dr sr1 imm5) s = .next t ∧
    WritesResult dr (BitVec.ofInt 16 ((s.reg sr1).toNat + imm5.toInt)) s t ∧
    KeepsMemory s t ∧ t.kbq = s.kbq

/-- R132: bit by bit, on all 16 bits. -/
def Obligations.AndRegisterGivesTheBitwiseAnd : Prop :=
  ∀ (dr sr1 sr2 : Reg) (s : State), ∃ t v, exec (.andReg dr sr1 sr2) s = .next t ∧
    (∀ k, k < 16 → v.getLsbD k = ((s.reg sr1).getLsbD k && (s.reg sr2).getLsbD k)) ∧
    WritesResult dr v s t ∧ KeepsMemory s t ∧ t.kbq = s.kbq

/-- R133: bits [15:4] of the mask are the immediate's sign bit, so a non-negative immediate clears them and a
negative one keeps them. -/
def Obligations.AndImmediateSignExtendsTheMask : Prop :=
  ∀ (dr sr1 : Reg) (imm5 : BitVec 5) (s : State), ∃ t v, exec (.andImm dr sr1 imm5) s = .next t ∧
    (∀ k, k < 16 → v.getLsbD k = ((s.reg sr1).getLsbD k && imm5.getLsbD (min k 4))) ∧
    WritesResult dr v s t ∧ KeepsMemory s t ∧ t.kbq = s.kbq

/-- R134: 0xFFFF minus the source. -/
def Obligations.NotGivesTheComplement : Prop :=
  ∀ (dr sr1 : Reg) (s : State), ∃ t, exec (.not dr sr1) s = .next t ∧
    WritesResult dr (BitVec.ofNat 16 (0xFFFF - (s.reg sr1).toNat)) s t ∧
    KeepsMemory s t ∧ t.kbq = s.kbq

/-! ## BR, JMP, JSR, JSRR, RTI, RES -/

/-- R140: taken when n meets NEG, z meets ZRO or p meets POS, to PC† plus the signed offset modulo 65536. The bit
order is D3 (log entry 11). -/
def Obligations.BrTestsTheMaskAgainstCond : Prop :=
  ∀ (nzp : BitVec 3) (offset9 : BitVec 9) (s : State), ∃ t, exec (.br nzp offset9) s = .next t ∧
    t.pc = (if (nzp.getLsbD 2 && s.cond.getLsbD 2) || (nzp.getLsbD 1 && s.cond.getLsbD 1) ||
        (nzp.getLsbD 0 && s.cond.getLsbD 0)
      then BitVec.ofInt 16 (s.pc.toNat + offset9.toInt) else s.pc) ∧
    KeepsRegs [] s t ∧ t.cond = s.cond ∧ KeepsRun s t ∧ KeepsDevices s t ∧ KeepsMemory s t

/-- R211: while COND is zero no BR is taken, whatever its mask; the mask 111 is taken as soon as COND is one of the
three codes. -/
def Obligations.NoBrIsTakenBeforeTheFirstFlagUpdate : Prop :=
  ∀ (offset9 : BitVec 9) (s : State),
    (s.cond = 0 → ∀ nzp, exec (.br nzp offset9) s = .next s) ∧
    ((s.cond = 0b001 ∨ s.cond = 0b010 ∨ s.cond = 0b100) →
      exec (.br 0b111 offset9) s = .next { s with pc := BitVec.ofInt 16 (s.pc.toNat + offset9.toInt) })

/-- R141: the PC becomes the base register, and nothing else changes. -/
def Obligations.JmpGoesToTheBaseRegister : Prop :=
  ∀ (base : Reg) (s : State), ∃ t, exec (.jmp base) s = .next t ∧ t.pc = s.reg base ∧
    KeepsRegs [] s t ∧ t.cond = s.cond ∧ KeepsRun s t ∧ KeepsDevices s t ∧ KeepsMemory s t

/-- R142: R7 gets PC†, the PC gets PC† plus the signed offset modulo 65536, COND stays (D7; log entry 15). -/
def Obligations.JsrLinksAndJumps : Prop :=
  ∀ (offset11 : BitVec 11) (s : State), ∃ t, exec (.jsr offset11) s = .next t ∧
    t.reg .r7 = s.pc ∧ t.pc = BitVec.ofInt 16 (s.pc.toNat + offset11.toInt) ∧
    KeepsRegs [.r7] s t ∧ t.cond = s.cond ∧ KeepsRun s t ∧ KeepsDevices s t ∧ KeepsMemory s t

/-- R143: R7 gets PC†; the PC gets the base register, which for R7 is the link just written (decision D8; log entry
16). COND stays (D7; log entry 15). -/
def Obligations.JsrrLinksBeforeItReadsTheBase : Prop :=
  ∀ (base : Reg) (s : State), ∃ t, exec (.jsrr base) s = .next t ∧
    t.reg .r7 = s.pc ∧ (base ≠ .r7 → t.pc = s.reg base) ∧ (base = .r7 → t.pc = s.pc) ∧
    KeepsRegs [.r7] s t ∧ t.cond = s.cond ∧ KeepsRun s t ∧ KeepsDevices s t ∧ KeepsMemory s t

/-- R144 and R145: after the fetch increment nothing at all changes. -/
def Obligations.RtiAndResDoNothing : Prop :=
  ∀ s : State, exec .rti s = .next s ∧ exec .res s = .next s

/-! ## LD, LDI, LDR, LEA, ST, STI, STR -/

/-- R150: one read at PC† plus the signed offset. -/
def Obligations.LdLoadsFromThePcRelativeAddress : Prop :=
  ∀ (dr : Reg) (offset9 : BitVec 9) (s : State), ∃ t v, exec (.ld dr offset9) s = .next t ∧
    AfterRead s (BitVec.ofInt 16 (s.pc.toNat + offset9.toInt)) v t ∧ WritesResult dr v s t

/-- R151: the pointer read first, then the data read, each with its own poll where it is at KBSR. -/
def Obligations.LdiReadsThePointerThenTheData : Prop :=
  ∀ (dr : Reg) (offset9 : BitVec 9) (s : State), ∃ t pointer between v, exec (.ldi dr offset9) s = .next t ∧
    AfterRead s (BitVec.ofInt 16 (s.pc.toNat + offset9.toInt)) pointer between ∧
    AfterRead between pointer v t ∧ WritesResult dr v s t

/-- R152: one read at the base register plus the signed offset. -/
def Obligations.LdrLoadsFromBasePlusOffset : Prop :=
  ∀ (dr base : Reg) (offset6 : BitVec 6) (s : State), ∃ t v, exec (.ldr dr base offset6) s = .next t ∧
    AfterRead s (BitVec.ofInt 16 ((s.reg base).toNat + offset6.toInt)) v t ∧ WritesResult dr v s t

/-- R153: the address itself, with the flags set from it, and no memory access. -/
def Obligations.LeaGivesTheAddress : Prop :=
  ∀ (dr : Reg) (offset9 : BitVec 9) (s : State), ∃ t, exec (.lea dr offset9) s = .next t ∧
    WritesResult dr (BitVec.ofInt 16 (s.pc.toNat + offset9.toInt)) s t ∧ KeepsMemory s t ∧ t.kbq = s.kbq

/-- R154: the one word at PC† plus the signed offset becomes the register, KBSR and KBDR included, without a poll. -/
def Obligations.StStoresAtThePcRelativeAddress : Prop :=
  ∀ (sr : Reg) (offset9 : BitVec 9) (s : State), ∃ t, exec (.st sr offset9) s = .next t ∧
    (∀ a : Nat, Memory.read t.mem a =
      if a = (BitVec.ofInt 16 (s.pc.toNat + offset9.toInt)).toNat then s.reg sr else Memory.read s.mem a) ∧
    KeepsRegs [] s t ∧ t.pc = s.pc ∧ t.cond = s.cond ∧ KeepsRun s t ∧ KeepsDevices s t

/-- R155: the pointer read, which polls where it is at KBSR, then the store at the pointer, which never polls. -/
def Obligations.StiStoresThroughThePointer : Prop :=
  ∀ (sr : Reg) (offset9 : BitVec 9) (s : State), ∃ t pointer between, exec (.sti sr offset9) s = .next t ∧
    AfterRead s (BitVec.ofInt 16 (s.pc.toNat + offset9.toInt)) pointer between ∧
    (∀ a : Nat, Memory.read t.mem a =
      if a = pointer.toNat then s.reg sr else Memory.read between.mem a) ∧
    t.kbq = between.kbq ∧ KeepsRegs [] s t ∧ t.pc = s.pc ∧ t.cond = s.cond ∧ KeepsRun s t ∧ t.con = s.con

/-- R156: the one word at the base register plus the signed offset becomes the source register. -/
def Obligations.StrStoresAtBasePlusOffset : Prop :=
  ∀ (sr base : Reg) (offset6 : BitVec 6) (s : State), ∃ t, exec (.str sr base offset6) s = .next t ∧
    (∀ a : Nat, Memory.read t.mem a =
      if a = (BitVec.ofInt 16 ((s.reg base).toNat + offset6.toInt)).toNat then s.reg sr
      else Memory.read s.mem a) ∧
    KeepsRegs [] s t ∧ t.pc = s.pc ∧ t.cond = s.cond ∧ KeepsRun s t ∧ KeepsDevices s t

/-! ## The trap services -/

/-- R161: with a character pending, R0 gets it zero-extended, KBQ loses it, nothing is echoed, and COND, R7 and the
PC stay (D6, D7; log entries 14, 15). With none, the core is held at the read and nothing else changes (log entry 4). -/
def Obligations.GetcTakesACharacterOrIsHeld : Prop :=
  ∀ s : State,
    (∀ c rest, s.kbq = c :: rest → ∃ t, exec .getc s = .next t ∧
      t.reg .r0 = BitVec.ofNat 16 c.toNat ∧ KeepsRegs [.r0] s t ∧ t.kbq = rest ∧ t.con = s.con ∧
      t.pc = s.pc ∧ t.cond = s.cond ∧ t.run = s.run ∧ t.stop = s.stop ∧ t.hold = none ∧ KeepsMemory s t) ∧
    (s.kbq = [] → exec .getc s = .next { s with hold := some .getc })

/-- R164: the 19 codes of the prompt, then the character read, into R0 and echoed. With none pending the core is
held after the prompt. Codes are ASCII by decision D11 (log entry 19). -/
def Obligations.InPromptsReadsAndEchoes : Prop :=
  ∀ s : State,
    let shown : List Word := s.con ++ [0x49, 0x6E, 0x70, 0x75, 0x74, 0x20, 0x61, 0x20, 0x63, 0x68, 0x61, 0x72, 0x61,
      0x63, 0x74, 0x65, 0x72, 0x3A, 0x20]
    (∀ c rest, s.kbq = c :: rest → ∃ t, exec .in_ s = .next t ∧
      t.reg .r0 = BitVec.ofNat 16 c.toNat ∧ KeepsRegs [.r0] s t ∧ t.kbq = rest ∧
      t.con = shown ++ [BitVec.ofNat 16 c.toNat] ∧
      t.pc = s.pc ∧ t.cond = s.cond ∧ t.run = s.run ∧ t.stop = s.stop ∧ t.hold = none ∧ KeepsMemory s t) ∧
    (s.kbq = [] → exec .in_ s = .next { s with con := shown, hold := some .in_ })

/-- R122: a held core has no step while KBQ is empty, and one delivered character ends the hold. With characters
pending, however many have arrived (R193), the read takes the first, IN echoes it, and the rest stay pending. Stopping
under the name `held` is the model's choice (log entry 5), and so are `hold` (log entry 4) and `deliver` (log entry 8). -/
def Obligations.HeldReadWaitsForOneCharacter : Prop :=
  ∀ (s : State) (h : HeldRead), s.run = true → s.hold = some h →
    (s.kbq = [] → step s = .fault .held ∧
      ∀ c, ∃ t, step (s.deliver c) = .next t ∧ FinishesRead h c [] s t) ∧
    (∀ c rest, s.kbq = c :: rest → ∃ t, step s = .next t ∧ FinishesRead h c rest s t)

/-- R162: the low byte of R0, zero-extended, goes to the console, and nothing else changes. -/
def Obligations.OutWritesTheLowByteOfR0 : Prop :=
  ∀ s : State, ∃ t, exec .out s = .next t ∧
    t.con = s.con ++ [BitVec.ofNat 16 ((s.reg .r0).toNat % 256)] ∧ t.kbq = s.kbq ∧
    KeepsRegs [] s t ∧ t.pc = s.pc ∧ t.cond = s.cond ∧ KeepsRun s t ∧ KeepsMemory s t

/-- R163 for a string that does not pass KBSR: its words, whole, and a newline (D10, D11; log entries 18, 19). The
addresses run on from 0xFFFF to 0x0000. -/
def Obligations.PutsWritesTheStringAndANewline : Prop :=
  ∀ (s : State) (ws : List Word),
    (∀ k w, ws[k]? = some w → w ≠ 0 ∧ Memory.read s.mem (((s.reg .r0).toNat + k) % 65536) = w) →
    Memory.read s.mem (((s.reg .r0).toNat + ws.length) % 65536) = 0 →
    (∀ k, k ≤ ws.length → ((s.reg .r0).toNat + k) % 65536 ≠ 0xFE00) →
    ∃ t, exec .puts s = .next t ∧ t.con = s.con ++ ws ++ [0x000A] ∧ t.kbq = s.kbq ∧
      KeepsRegs [] s t ∧ t.pc = s.pc ∧ t.cond = s.cond ∧ KeepsRun s t ∧ KeepsMemory s t

/-- R165 for a string that does not pass KBSR: of each word the low byte, always (decision D21; log entry 25), then
the high byte if it is nonzero, and a newline at the end. -/
def Obligations.PutspWritesThePackedStringAndANewline : Prop :=
  ∀ (s : State) (ws : List Word),
    (∀ k w, ws[k]? = some w → w ≠ 0 ∧ Memory.read s.mem (((s.reg .r0).toNat + k) % 65536) = w) →
    Memory.read s.mem (((s.reg .r0).toNat + ws.length) % 65536) = 0 →
    (∀ k, k ≤ ws.length → ((s.reg .r0).toNat + k) % 65536 ≠ 0xFE00) →
    ∃ t, exec .putsp s = .next t ∧
      t.con = s.con ++ ws.flatMap (fun w => BitVec.ofNat 16 (w.toNat % 256) ::
        (if w.toNat / 256 = 0 then [] else [BitVec.ofNat 16 (w.toNat / 256)])) ++ [0x000A] ∧
      t.kbq = s.kbq ∧ KeepsRegs [] s t ∧ t.pc = s.pc ∧ t.cond = s.cond ∧ KeepsRun s t ∧ KeepsMemory s t

/-- PUTS and PUTSP are the unbounded loops of R163 and R165, and those loops end from every state: each pass over
KBSR takes a pending character, and a pass with none reads zero (R218). That no character arrives inside a step is
the model's reading of R119 and R193 (log entry 7). -/
def Obligations.PutsAndPutspAlwaysFinishTheirLoop : Prop :=
  ∀ s : State,
    (∃ t, Walks (fun w => [w]) (s.reg .r0) s t ∧ exec .puts s = .next { t with con := t.con ++ [0x000A] }) ∧
    (∃ t, Walks (fun w => BitVec.ofNat 16 (w.toNat % 256) ::
        (if w.toNat / 256 = 0 then [] else [BitVec.ofNat 16 (w.toNat / 256)])) (s.reg .r0) s t ∧
      exec .putsp s = .next { t with con := t.con ++ [0x000A] })

/-- R166: "HALT" and a newline, RUN cleared, STOP set, and nothing else. Codes are ASCII by D11 (log entry 19). -/
def Obligations.HaltWritesItsLineAndStops : Prop :=
  ∀ s : State, ∃ t, exec .halt s = .next t ∧
    t.con = s.con ++ [0x48, 0x41, 0x4C, 0x54, 0x0A] ∧ t.run = false ∧ t.stop = .haltTrap ∧
    KeepsRegs [] s t ∧ t.pc = s.pc ∧ t.cond = s.cond ∧ t.hold = s.hold ∧ t.kbq = s.kbq ∧ KeepsMemory s t

/-! ## Memory, sign extension, flags -/

/-- R52 and R53: a read returns the stored word; at KBSR it polls first and returns what the poll wrote; nothing but
memory and the keyboard queue can change. -/
def Obligations.MemReadReturnsTheWordAfterThePoll : Prop :=
  ∀ (a : Word) (s : State),
    AfterRead s a (memRead a s).1 (memRead a s).2 ∧
    KeepsRegs [] s (memRead a s).2 ∧ (memRead a s).2.pc = s.pc ∧ (memRead a s).2.cond = s.cond ∧
    KeepsRun s (memRead a s).2 ∧ (memRead a s).2.con = s.con

/-- R54: a store changes the one word, at every address, and nothing else; so a read returns the last word stored. -/
def Obligations.MemWriteChangesTheOneWord : Prop :=
  ∀ (a v : Word) (s : State),
    (∀ b : Nat, Memory.read (memWrite a v s).mem b = if b = a.toNat then v else Memory.read s.mem b) ∧
    KeepsRegs [] s (memWrite a v s) ∧ (memWrite a v s).pc = s.pc ∧ (memWrite a v s).cond = s.cond ∧
    KeepsRun s (memWrite a v s) ∧ KeepsDevices s (memWrite a v s)

/-- R56: a read of KBDR returns the stored word and changes nothing: no poll, no character taken, KBSR's ready bit
as it was. -/
def Obligations.KbdrReadIsPlain : Prop :=
  ∀ s : State, memRead 0xFE02 s = (Memory.read s.mem 0xFE02, s)

/-- Two memories in canonical form that read alike at every address are the same data (log entry 1). -/
def Obligations.CanonicalMemoriesThatReadAlikeAreEqual : Prop :=
  ∀ m m' : Memory, Memory.wf m = true → Memory.wf m' = true →
    (∀ a, Memory.read m a = Memory.read m' a) → m = m'

/-- R64: an ST with offset 0 overwrites the next instruction, and the word stored is what the next step runs. -/
def Obligations.StoredWordIsTheNextInstruction : Prop :=
  ∀ (s : State) (sr : Reg) (i : Instr), s.run = true → s.hold = none → s.pc ≠ 0xFE00 →
    decode (s.reg sr) = .instr i →
    ∃ t, exec (.st sr 0) s = .next t ∧
      step t = exec i { t with pc := if s.pc = 0xFFFF then 0xFFFF else s.pc + 1 }

/-- R115: the field's bits, and above them its sign bit; the value as a signed number is unchanged. -/
def Obligations.SextCopiesTheSignBit : Prop :=
  ∀ (n : Nat) (v : BitVec n), 1 ≤ n → n ≤ 16 →
    (∀ k, k < 16 → (sext v).getLsbD k = if k < n then v.getLsbD k else v.getLsbD (n - 1)) ∧
    (sext v).toInt = v.toInt ∧ sext (0b11111 : BitVec 5) = 0xFFFF ∧ sext (0b01111 : BitVec 5) = 0x000F

/-- R116: ZRO for 0, NEG when bit 15 is set, else POS; the whole of COND is replaced and nothing else changes. -/
def Obligations.SetCcGivesExactlyOneFlag : Prop :=
  ∀ (v : Word) (s : State),
    (v = 0x0000 → (setCC v s).cond = 0b010) ∧
    (0x8000 ≤ v.toNat → (setCC v s).cond = 0b100) ∧
    (0x0001 ≤ v.toNat → v.toNat ≤ 0x7FFF → (setCC v s).cond = 0b001) ∧
    KeepsRegs [] s (setCC v s) ∧ (setCC v s).pc = s.pc ∧ KeepsMemory s (setCC v s) ∧
    KeepsRun s (setCC v s) ∧ KeepsDevices s (setCC v s)

/-! ## Rules about all instructions -/

/-- R117: the seven flag-updating instructions set COND from the register they wrote, and every other instruction
leaves COND alone, those that write a register without being among the seven included (D7; log entry 15). -/
def Obligations.OnlySevenInstructionsUpdateTheFlags : Prop :=
  ∀ (i : Instr) (s t : State), exec i s = .next t →
    (∀ dr, flagSource i = some dr → t.cond = flagsOf (t.reg dr)) ∧
    (flagSource i = none → t.cond = s.cond)

/-- R21: an instruction writes no general register but those its row of the table names; a TRAP does not write R7
(D6; log entry 14). -/
def Obligations.OnlyTheTabledRegistersAreWritten : Prop :=
  ∀ (i : Instr) (s t : State), exec i s = .next t → KeepsRegs (writtenRegs i) s t

/-- R65: an instruction that uses no memory leaves every word as it was, and one that only reads leaves every word but
the two keyboard cells. (Where ST, STI and STR store, their own statements say.) -/
def Obligations.OnlyStoresChangeOrdinaryMemory : Prop :=
  ∀ (i : Instr) (s t : State), exec i s = .next t →
    (memoryUse i = .none → KeepsMemory s t) ∧
    (memoryUse i = .reads → ∀ a : Nat, a ≠ 0xFE00 → a ≠ 0xFE02 → Memory.read t.mem a = Memory.read s.mem a)

/-- R31: a step only appends to the console and only takes characters from the front of the keyboard queue. -/
def Obligations.ConsoleOnlyGrowsAndKeysAreTakenInOrder : Prop :=
  ∀ s t : State, step s = .next t →
    (∃ written, t.con = s.con ++ written) ∧ (∃ taken, s.kbq = taken ++ t.kbq)

/-- R31: the core cannot read the console: what was written earlier has no effect on a step. -/
def Obligations.EarlierOutputHasNoEffect : Prop :=
  ∀ (earlier : List Word) (s : State),
    step (s.withEarlierOutput earlier) = mapNext (State.withEarlierOutput earlier) (step s)

/-- R31, R193: a character that arrives behind characters the step leaves pending has no effect on the step: it is
only found at the tail afterwards. -/
def Obligations.ArrivalBehindPendingCharactersHasNoEffect : Prop :=
  ∀ (c : Byte) (s t : State), step s = .next t → t.kbq ≠ [] → step (s.deliver c) = .next (t.deliver c)

/-- The machine's invariant (canonical memory, log entry 1; COND legal, R25; RUN against STOP, R26; a hold only in a
running core, R194) is kept by every step, from every state that has it. -/
def Obligations.EveryStepKeepsTheInvariant : Prop :=
  ∀ s t : State, s.Inv → step s = .next t → t.Inv

/-- The state at reset has the invariant. -/
def Obligations.ResetHasTheInvariant : Prop := State.reset.Inv

/-- Every state a run can reach, whatever images it boots from and whatever characters arrive, has the invariant; so
its COND is 0, 1, 2 or 4 (R25), and a step from it stops only halted or held. The names of these two stops are the
model's choice (log entry 5), and so are the held state (log entry 4) and `deliver` as a move beside the step (log
entry 8). That no PUTS or PUTSP is without an end, as R218 has one neither halted nor held, is the model's reading of
R119 and R193 (log entry 7). -/
def Obligations.ReachableStatesHaveTheInvariant : Prop :=
  ∀ s : State, Reachable s → s.Inv ∧
    ((∃ t, step s = .next t) ∨ (step s = .fault .halted ∧ s.stop ≠ .none) ∨
      (step s = .fault .held ∧ s.hold ≠ none))

/-! ## Reset and boot -/

/-- R33, R34 and R200: reset zeroes R0 to R7, PC, COND and every word of memory, with RUN not yet true, STOP none
(D17; log entry 24), CON empty and nothing held (log entry 4); in the launch state R0 to R7, COND and memory are still
zero, while PC is START_ADDR and RUN is true. -/
def Obligations.ResetLeavesRegistersAndMemoryZero : Prop :=
  (∀ r, State.constructed.reg r = 0) ∧ State.constructed.pc = 0 ∧ State.constructed.cond = 0 ∧
  (∀ a : Nat, Memory.read State.constructed.mem a = 0) ∧ State.constructed.run = false ∧
  State.constructed.stop = .none ∧ State.constructed.con = [] ∧ State.constructed.hold = none ∧
  (∀ r, State.reset.reg r = 0) ∧ State.reset.cond = 0 ∧ (∀ a : Nat, Memory.read State.reset.mem a = 0)

/-- The launch state without an image word: PC at 0x3000, COND zero, running, no stop reason, nothing typed or
written (R33, R200; the start address, the empty queue and STOP are D19, D20 and D17; log entry 3). Booting an image
of an origin alone gives it. -/
def Obligations.ResetIsTheLaunchStateWithoutAnImage : Prop :=
  State.reset.pc = 0x3000 ∧ State.reset.cond = 0 ∧ State.reset.run = true ∧ State.reset.stop = .none ∧
  State.reset.kbq = [] ∧ State.reset.con = [] ∧ State.reset.hold = none ∧
  boot [[0x30, 0x00]] 0x3000 [] = .ready State.reset

/-- R203: the words of a well-formed image, big-endian, stand from its origin on, and every other word is zero. The
image fits below 0x10000 (R205); the rest of the launch state is that of R33 and R202, where STOP is D17 (log entry
24), the queue of given characters D12 and D20 (log entries 3 and 20), and `hold` the model's own (log entry 4). -/
def Obligations.BootPlacesTheImageBigEndian : Prop :=
  ∀ (b : Image) (start : Word) (keys : List Byte),
    let byte := fun k => (b.getD k 0).toNat
    let origin := byte 0 * 256 + byte 1
    2 ≤ b.length → b.length % 2 = 0 → origin + (b.length / 2 - 1) ≤ 65536 →
    ∃ s, boot [b] start keys = .ready s ∧
      (∀ k, 1 ≤ k → k < b.length / 2 →
        Memory.read s.mem (origin + (k - 1)) = BitVec.ofNat 16 (byte (2 * k) * 256 + byte (2 * k + 1))) ∧
      (∀ a : Nat, a < origin ∨ origin + (b.length / 2 - 1) ≤ a → Memory.read s.mem a = 0) ∧
      KeepsRegs [] State.constructed s ∧ s.pc = start ∧ s.cond = 0 ∧ s.run = true ∧ s.stop = .none ∧
      s.kbq = keys ∧ s.con = [] ∧ s.hold = none

/-- R204: an image of fewer than two bytes or of an odd number of them gives no launch state. -/
def Obligations.MalformedImageIsNotLaunched : Prop :=
  ∀ (b : Image) (start : Word) (keys : List Byte), (b.length < 2 ∨ b.length % 2 = 1) →
    boot [b] start keys = .failed .malformed

/-- R205: an image that would run past 0xFFFF is refused, never wrapped: the spec's decision D16 (log entry 23). -/
def Obligations.ImagePastTheTopIsRefused : Prop :=
  ∀ (b : Image) (start : Word) (keys : List Byte), 2 ≤ b.length → b.length % 2 = 0 →
    65536 < ((b.getD 0 0).toNat * 256 + (b.getD 1 0).toNat) + (b.length / 2 - 1) →
    boot [b] start keys = .failed .pastTop

/-- Several images are applied in order, later words over earlier ones: booting one image more leaves what the boot
of the others leaves, but for the words of that image, at their places of R203. This is the spec's decision D16 on
R205 (log entry 23). With no image there is the launch state of R33 with all memory zero. -/
def Obligations.BootAppliesImagesInOrder : Prop :=
  ∀ (start : Word) (keys : List Byte),
    boot [] start keys = .ready { State.constructed with pc := start, run := true, kbq := keys } ∧
    ∀ (earlier : List Image) (b : Image) (s : State),
      let byte := fun k => (b.getD k 0).toNat
      let origin := byte 0 * 256 + byte 1
      boot earlier start keys = .ready s →
      2 ≤ b.length → b.length % 2 = 0 → origin + (b.length / 2 - 1) ≤ 65536 →
      ∃ t, boot (earlier ++ [b]) start keys = .ready t ∧
        (∀ k, 1 ≤ k → k < b.length / 2 →
          Memory.read t.mem (origin + (k - 1)) = BitVec.ofNat 16 (byte (2 * k) * 256 + byte (2 * k + 1))) ∧
        (∀ a : Nat, a < origin ∨ origin + (b.length / 2 - 1) ≤ a → Memory.read t.mem a = Memory.read s.mem a) ∧
        KeepsRegs [] s t ∧ t.pc = s.pc ∧ t.cond = s.cond ∧ KeepsRun s t ∧ KeepsDevices s t

/-- One malformed image (R204), or one that would run past 0xFFFF (R205), gives no launch state, whatever images stand
before and after it; where those before it load, the failure is that image's. Several images, and the refusal of one
past the top, are the spec's decision D16 (log entry 23). -/
def Obligations.OneBadImageGivesNoLaunch : Prop :=
  ∀ (before after : List Image) (b : Image) (start : Word) (keys : List Byte),
    (b.length < 2 ∨ b.length % 2 = 1 ∨
      65536 < ((b.getD 0 0).toNat * 256 + (b.getD 1 0).toNat) + (b.length / 2 - 1)) →
    (∃ e, boot (before ++ b :: after) start keys = .failed e) ∧
    (∀ s, boot before start keys = .ready s → boot (before ++ b :: after) start keys =
      .failed (if b.length < 2 ∨ b.length % 2 = 1 then .malformed else .pastTop))
end

