-- ==== Sys2Proof/Laws/State.lean ====
section
/-! SUPPORT. One lemma per field per update of the state, so that no proof unfolds a record update. -/

namespace Sys2Proof.Laws

open Sys2Proof.Machine

/-! ### setReg -/

@[simp] theorem setReg_regs (r : Reg) (v : Word) (s : State) : (s.setReg r v).regs = s.regs.set r v := rfl
@[simp] theorem setReg_pc (r : Reg) (v : Word) (s : State) : (s.setReg r v).pc = s.pc := rfl
@[simp] theorem setReg_cond (r : Reg) (v : Word) (s : State) : (s.setReg r v).cond = s.cond := rfl
@[simp] theorem setReg_run (r : Reg) (v : Word) (s : State) : (s.setReg r v).run = s.run := rfl
@[simp] theorem setReg_stop (r : Reg) (v : Word) (s : State) : (s.setReg r v).stop = s.stop := rfl
@[simp] theorem setReg_mem (r : Reg) (v : Word) (s : State) : (s.setReg r v).mem = s.mem := rfl
@[simp] theorem setReg_kbq (r : Reg) (v : Word) (s : State) : (s.setReg r v).kbq = s.kbq := rfl
@[simp] theorem setReg_con (r : Reg) (v : Word) (s : State) : (s.setReg r v).con = s.con := rfl
@[simp] theorem setReg_hold (r : Reg) (v : Word) (s : State) : (s.setReg r v).hold = s.hold := rfl
@[simp] theorem setReg_cell (r : Reg) (v : Word) (s : State) (a : Word) : (s.setReg r v).cell a = s.cell a := rfl

/-! ### setPc -/

@[simp] theorem setPc_regs (t : Word) (s : State) : (s.setPc t).regs = s.regs := rfl
@[simp] theorem setPc_pc (t : Word) (s : State) : (s.setPc t).pc = t := rfl
@[simp] theorem setPc_cond (t : Word) (s : State) : (s.setPc t).cond = s.cond := rfl
@[simp] theorem setPc_run (t : Word) (s : State) : (s.setPc t).run = s.run := rfl
@[simp] theorem setPc_stop (t : Word) (s : State) : (s.setPc t).stop = s.stop := rfl
@[simp] theorem setPc_mem (t : Word) (s : State) : (s.setPc t).mem = s.mem := rfl
@[simp] theorem setPc_kbq (t : Word) (s : State) : (s.setPc t).kbq = s.kbq := rfl
@[simp] theorem setPc_con (t : Word) (s : State) : (s.setPc t).con = s.con := rfl
@[simp] theorem setPc_hold (t : Word) (s : State) : (s.setPc t).hold = s.hold := rfl
@[simp] theorem setPc_reg (t : Word) (s : State) (r : Reg) : (s.setPc t).reg r = s.reg r := rfl
@[simp] theorem setPc_cell (t : Word) (s : State) (a : Word) : (s.setPc t).cell a = s.cell a := rfl

/-! ### memWrite -/

@[simp] theorem memWrite_regs (a v : Word) (s : State) : (memWrite a v s).regs = s.regs := rfl
@[simp] theorem memWrite_pc (a v : Word) (s : State) : (memWrite a v s).pc = s.pc := rfl
@[simp] theorem memWrite_cond (a v : Word) (s : State) : (memWrite a v s).cond = s.cond := rfl
@[simp] theorem memWrite_run (a v : Word) (s : State) : (memWrite a v s).run = s.run := rfl
@[simp] theorem memWrite_stop (a v : Word) (s : State) : (memWrite a v s).stop = s.stop := rfl
@[simp] theorem memWrite_mem (a v : Word) (s : State) : (memWrite a v s).mem = Memory.write s.mem a.toNat v := rfl
@[simp] theorem memWrite_kbq (a v : Word) (s : State) : (memWrite a v s).kbq = s.kbq := rfl
@[simp] theorem memWrite_con (a v : Word) (s : State) : (memWrite a v s).con = s.con := rfl
@[simp] theorem memWrite_hold (a v : Word) (s : State) : (memWrite a v s).hold = s.hold := rfl
@[simp] theorem memWrite_reg (a v : Word) (s : State) (r : Reg) : (memWrite a v s).reg r = s.reg r := rfl

/-! ### setCC -/

@[simp] theorem setCC_regs (v : Word) (s : State) : (setCC v s).regs = s.regs := rfl
@[simp] theorem setCC_pc (v : Word) (s : State) : (setCC v s).pc = s.pc := rfl
@[simp] theorem setCC_cond (v : Word) (s : State) : (setCC v s).cond = condOf v := rfl
@[simp] theorem setCC_run (v : Word) (s : State) : (setCC v s).run = s.run := rfl
@[simp] theorem setCC_stop (v : Word) (s : State) : (setCC v s).stop = s.stop := rfl
@[simp] theorem setCC_mem (v : Word) (s : State) : (setCC v s).mem = s.mem := rfl
@[simp] theorem setCC_kbq (v : Word) (s : State) : (setCC v s).kbq = s.kbq := rfl
@[simp] theorem setCC_con (v : Word) (s : State) : (setCC v s).con = s.con := rfl
@[simp] theorem setCC_hold (v : Word) (s : State) : (setCC v s).hold = s.hold := rfl
@[simp] theorem setCC_reg (v : Word) (s : State) (r : Reg) : (setCC v s).reg r = s.reg r := rfl
@[simp] theorem setCC_cell (v : Word) (s : State) (a : Word) : (setCC v s).cell a = s.cell a := rfl

/-! ### consoleWrite -/

@[simp] theorem consoleWrite_regs (c : Word) (s : State) : (consoleWrite c s).regs = s.regs := rfl
@[simp] theorem consoleWrite_pc (c : Word) (s : State) : (consoleWrite c s).pc = s.pc := rfl
@[simp] theorem consoleWrite_cond (c : Word) (s : State) : (consoleWrite c s).cond = s.cond := rfl
@[simp] theorem consoleWrite_run (c : Word) (s : State) : (consoleWrite c s).run = s.run := rfl
@[simp] theorem consoleWrite_stop (c : Word) (s : State) : (consoleWrite c s).stop = s.stop := rfl
@[simp] theorem consoleWrite_mem (c : Word) (s : State) : (consoleWrite c s).mem = s.mem := rfl
@[simp] theorem consoleWrite_kbq (c : Word) (s : State) : (consoleWrite c s).kbq = s.kbq := rfl
@[simp] theorem consoleWrite_con (c : Word) (s : State) : (consoleWrite c s).con = s.con ++ [c] := rfl
@[simp] theorem consoleWrite_hold (c : Word) (s : State) : (consoleWrite c s).hold = s.hold := rfl
@[simp] theorem consoleWrite_reg (c : Word) (s : State) (r : Reg) : (consoleWrite c s).reg r = s.reg r := rfl
@[simp] theorem consoleWrite_cell (c : Word) (s : State) (a : Word) : (consoleWrite c s).cell a = s.cell a := rfl

/-! ### consoleWriteAll -/

@[simp] theorem consoleWriteAll_regs (cs : List Word) (s : State) : (consoleWriteAll cs s).regs = s.regs := rfl
@[simp] theorem consoleWriteAll_pc (cs : List Word) (s : State) : (consoleWriteAll cs s).pc = s.pc := rfl
@[simp] theorem consoleWriteAll_cond (cs : List Word) (s : State) : (consoleWriteAll cs s).cond = s.cond := rfl
@[simp] theorem consoleWriteAll_run (cs : List Word) (s : State) : (consoleWriteAll cs s).run = s.run := rfl
@[simp] theorem consoleWriteAll_stop (cs : List Word) (s : State) : (consoleWriteAll cs s).stop = s.stop := rfl
@[simp] theorem consoleWriteAll_mem (cs : List Word) (s : State) : (consoleWriteAll cs s).mem = s.mem := rfl
@[simp] theorem consoleWriteAll_kbq (cs : List Word) (s : State) : (consoleWriteAll cs s).kbq = s.kbq := rfl
@[simp] theorem consoleWriteAll_con (cs : List Word) (s : State) : (consoleWriteAll cs s).con = s.con ++ cs := rfl
@[simp] theorem consoleWriteAll_hold (cs : List Word) (s : State) : (consoleWriteAll cs s).hold = s.hold := rfl
@[simp] theorem consoleWriteAll_reg (cs : List Word) (s : State) (r : Reg) : (consoleWriteAll cs s).reg r = s.reg r := rfl
@[simp] theorem consoleWriteAll_cell (cs : List Word) (s : State) (a : Word) : (consoleWriteAll cs s).cell a = s.cell a := rfl

/-! ### deliver -/

@[simp] theorem deliver_regs (c : Byte) (s : State) : (s.deliver c).regs = s.regs := rfl
@[simp] theorem deliver_pc (c : Byte) (s : State) : (s.deliver c).pc = s.pc := rfl
@[simp] theorem deliver_cond (c : Byte) (s : State) : (s.deliver c).cond = s.cond := rfl
@[simp] theorem deliver_run (c : Byte) (s : State) : (s.deliver c).run = s.run := rfl
@[simp] theorem deliver_stop (c : Byte) (s : State) : (s.deliver c).stop = s.stop := rfl
@[simp] theorem deliver_mem (c : Byte) (s : State) : (s.deliver c).mem = s.mem := rfl
@[simp] theorem deliver_kbq (c : Byte) (s : State) : (s.deliver c).kbq = s.kbq ++ [c] := rfl
@[simp] theorem deliver_con (c : Byte) (s : State) : (s.deliver c).con = s.con := rfl
@[simp] theorem deliver_hold (c : Byte) (s : State) : (s.deliver c).hold = s.hold := rfl
@[simp] theorem deliver_reg (c : Byte) (s : State) (r : Reg) : (s.deliver c).reg r = s.reg r := rfl
@[simp] theorem deliver_cell (c : Byte) (s : State) (a : Word) : (s.deliver c).cell a = s.cell a := rfl

/-! ### stopWith -/

@[simp] theorem stopWith_regs (why : StopReason) (s : State) : (stopWith why s).regs = s.regs := rfl
@[simp] theorem stopWith_pc (why : StopReason) (s : State) : (stopWith why s).pc = s.pc := rfl
@[simp] theorem stopWith_cond (why : StopReason) (s : State) : (stopWith why s).cond = s.cond := rfl
@[simp] theorem stopWith_run (why : StopReason) (s : State) : (stopWith why s).run = false := rfl
@[simp] theorem stopWith_stop (why : StopReason) (s : State) : (stopWith why s).stop = why := rfl
@[simp] theorem stopWith_mem (why : StopReason) (s : State) : (stopWith why s).mem = s.mem := rfl
@[simp] theorem stopWith_kbq (why : StopReason) (s : State) : (stopWith why s).kbq = s.kbq := rfl
@[simp] theorem stopWith_con (why : StopReason) (s : State) : (stopWith why s).con = s.con := rfl
@[simp] theorem stopWith_hold (why : StopReason) (s : State) : (stopWith why s).hold = s.hold := rfl
@[simp] theorem stopWith_reg (why : StopReason) (s : State) (r : Reg) : (stopWith why s).reg r = s.reg r := rfl
@[simp] theorem stopWith_cell (why : StopReason) (s : State) (a : Word) : (stopWith why s).cell a = s.cell a := rfl

end Sys2Proof.Laws
end

