-- ==== Sys2Proof/Laws/Memory.lean ====
section
/-! SUPPORT. Memory: a read after a write, and the canonical form every operation keeps. -/

namespace Sys2Proof.Laws

open Sys2Proof.Machine

/-! ### Reading after a write -/

@[simp] theorem read_nil (a : Nat) : Memory.read [] a = 0 := rfl

theorem read_cons (k a : Nat) (v : Word) (m : Memory) :
    Memory.read ((k, v) :: m) a = if k = a then v else Memory.read m a := rfl

/-- An erased address reads as zero, every other one as before. -/
theorem read_erase (m : Memory) (a b : Nat) :
    Memory.read (Memory.erase m a) b = if b = a then 0 else Memory.read m b := by
  induction m with
  | nil => simp [Memory.erase]
  | cons c m ih =>
    obtain ⟨k, v⟩ := c
    by_cases hk : k = a
    · have : Memory.erase ((k, v) :: m) a = Memory.erase m a := by simp [Memory.erase, hk]
      rw [this, ih, read_cons]
      split
      · rfl
      · next hb => rw [if_neg (fun h => hb (h.symm.trans hk))]
    · have : Memory.erase ((k, v) :: m) a = (k, v) :: Memory.erase m a := by simp [Memory.erase, hk]
      rw [this, read_cons, ih, read_cons]
      split
      · next hb => rw [if_neg (fun h => hk (hb.trans h))]
      · rfl

/-- Inserting at an address nothing is listed for: that address reads as the value. -/
theorem read_insert (m : Memory) (a b : Nat) (v : Word) (h : ∀ c ∈ m, c.1 ≠ a) :
    Memory.read (Memory.insert m a v) b = if b = a then v else Memory.read m b := by
  induction m with
  | nil => simp [Memory.insert, read_cons, eq_comm]
  | cons c m ih =>
    obtain ⟨k, w⟩ := c
    have hk : k ≠ a := h (k, w) (by simp)
    have ih := ih (fun c hc => h c (by simp [hc]))
    unfold Memory.insert
    split
    · simp [read_cons, eq_comm]
    · rw [read_cons, ih, read_cons]
      split
      · next hb => rw [if_neg (fun hh => hk (hb.trans hh))]
      · rfl

theorem not_mem_erase (m : Memory) (a : Nat) : ∀ c ∈ Memory.erase m a, c.1 ≠ a := by
  intro c hc
  simpa using (List.mem_filter.mp hc).2

/-- The law of memory (R54, R62): the written address reads as the written word, every other as before. -/
theorem read_write (m : Memory) (a b : Nat) (v : Word) :
    Memory.read (Memory.write m a v) b = if b = a then v else Memory.read m b := by
  unfold Memory.write
  split
  · next h => rw [read_erase, h]; rfl
  · rw [read_insert _ _ _ _ (not_mem_erase m a), read_erase]
    split <;> rfl

theorem memWrite_read (a v : Word) (s : State) (b : Nat) :
    Memory.read (memWrite a v s).mem b = if b = a.toNat then v else Memory.read s.mem b :=
  read_write s.mem a.toNat b v

theorem memWrite_cell (a v b : Word) (s : State) :
    (memWrite a v s).cell b = if b = a then v else s.cell b := by
  simp only [State.cell, memWrite_read, BitVec.toNat_inj]

/-! ### The canonical form -/

theorem wf_cons {k : Nat} {v : Word} {m : Memory} :
    Memory.wf ((k, v) :: m) = true ↔
      k < 65536 ∧ v ≠ 0 ∧ (∀ c ∈ m, k < c.1) ∧ Memory.wf m = true := by
  simp only [Memory.wf, Bool.and_eq_true, decide_eq_true_eq, List.all_eq_true, and_assoc]
  exact Iff.rfl

theorem wf_erase {m : Memory} (a : Nat) (h : Memory.wf m = true) : Memory.wf (Memory.erase m a) = true := by
  induction m with
  | nil => exact h
  | cons c m ih =>
    obtain ⟨k, v⟩ := c
    obtain ⟨h1, h2, h3, h4⟩ := wf_cons.mp h
    by_cases hk : k = a
    · have : Memory.erase ((k, v) :: m) a = Memory.erase m a := by simp [Memory.erase, hk]
      rw [this]; exact ih h4
    · have : Memory.erase ((k, v) :: m) a = (k, v) :: Memory.erase m a := by simp [Memory.erase, hk]
      rw [this]
      exact wf_cons.mpr ⟨h1, h2, fun c hc => h3 c (List.mem_filter.mp hc).1, ih h4⟩

theorem mem_insert {m : Memory} {a : Nat} {v : Word} {c : Nat × Word}
    (h : c ∈ Memory.insert m a v) : c = (a, v) ∨ c ∈ m := by
  induction m with
  | nil => simpa [Memory.insert] using h
  | cons d m ih =>
    obtain ⟨k, w⟩ := d
    unfold Memory.insert at h
    split at h
    · simpa using h
    · rcases List.mem_cons.mp h with h | h
      · exact .inr (by simp [h])
      · exact (ih h).imp id (fun h => by simp [h])

theorem wf_insert {m : Memory} {a : Nat} {v : Word} (ha : a < 65536) (hv : v ≠ 0)
    (hn : ∀ c ∈ m, c.1 ≠ a) (h : Memory.wf m = true) : Memory.wf (Memory.insert m a v) = true := by
  induction m with
  | nil => exact wf_cons.mpr ⟨ha, hv, by simp, rfl⟩
  | cons d m ih =>
    obtain ⟨k, w⟩ := d
    obtain ⟨h1, h2, h3, h4⟩ := wf_cons.mp h
    have hk : k ≠ a := hn (k, w) (by simp)
    unfold Memory.insert
    split
    · next hlt =>
      refine wf_cons.mpr ⟨ha, hv, ?_, h⟩
      intro c hc
      rcases List.mem_cons.mp hc with rfl | hc
      · exact hlt
      · exact hlt.trans (h3 c hc)
    · next hlt =>
      refine wf_cons.mpr ⟨h1, h2, ?_, ih (fun c hc => hn c (by simp [hc])) h4⟩
      intro c hc
      rcases mem_insert hc with rfl | hc
      · show k < a
        omega
      · exact h3 c hc

/-- A write inside the address space keeps the canonical form. -/
theorem wf_write {m : Memory} {a : Nat} (v : Word) (ha : a < 65536) (h : Memory.wf m = true) :
    Memory.wf (Memory.write m a v) = true := by
  unfold Memory.write
  split
  · exact wf_erase a h
  · next hv => exact wf_insert ha hv (not_mem_erase m a) (wf_erase a h)

theorem memWrite_wf {a v : Word} {s : State} (h : Memory.wf s.mem = true) :
    Memory.wf (memWrite a v s).mem = true :=
  wf_write v a.isLt h

end Sys2Proof.Laws
end

