-- ==== Sys2Proof/Laws/Boot.lean ====
section
/-! SUPPORT. The loader: where the words of an image come to stand, and that loading keeps the canonical form. -/

namespace Sys2Proof.Laws

open Sys2Proof.Machine

/-- Words stored from `a` on read back in order, and every other address reads as before. -/
theorem storeWords_read (ws : List Word) (a : Nat) (m : Memory) (x : Nat) :
    Memory.read (storeWords ws a m) x =
      if a ≤ x ∧ x < a + ws.length then ws.getD (x - a) 0 else Memory.read m x := by
  induction ws generalizing a m with
  | nil => simp only [storeWords, List.length_nil]; rw [if_neg (by omega)]
  | cons w ws ih =>
    rw [storeWords, ih, read_write]
    by_cases h : x = a
    · subst h; simp
    · by_cases h2 : a + 1 ≤ x ∧ x < a + 1 + ws.length
      · have h3 : a ≤ x ∧ x < a + (w :: ws).length := by simp; omega
        rw [if_pos h2, if_pos h3]
        obtain ⟨k, rfl⟩ : ∃ k, x = a + 1 + k := ⟨x - (a + 1), by omega⟩
        rw [show a + 1 + k - (a + 1) = k by omega, show a + 1 + k - a = k + 1 by omega, List.getD_cons_succ]
      · have h3 : ¬ (a ≤ x ∧ x < a + (w :: ws).length) := by simp; omega
        rw [if_neg h2, if_neg h, if_neg h3]

/-- Storing inside the address space keeps the canonical form. -/
theorem storeWords_wf (ws : List Word) (a : Nat) (m : Memory) (h : a + ws.length ≤ 65536)
    (hm : Memory.wf m = true) : Memory.wf (storeWords ws a m) = true := by
  induction ws generalizing a m with
  | nil => exact hm
  | cons w ws ih =>
    simp only [List.length_cons] at h
    exact ih (a + 1) (Memory.write m a w) (by omega) (wf_write w (by omega) hm)

theorem bigEndianWords_length : ∀ b : List Byte, (bigEndianWords b).length = b.length / 2
  | [] => rfl
  | [_] => by simp [bigEndianWords]
  | _ :: _ :: r => by simp only [bigEndianWords, List.length_cons, bigEndianWords_length r]; omega

/-- Two bytes, high byte first, as a number (R203). -/
theorem append_toNat (hi lo : Byte) : (hi ++ lo : BitVec 16).toNat = hi.toNat * 256 + lo.toNat := by
  have := BitVec.toNat_append hi lo
  rw [← Nat.shiftLeft_add_eq_or_of_lt lo.isLt, Nat.shiftLeft_eq] at this
  exact this

/-- The k-th word is made of bytes 2k and 2k + 1 (R203). -/
theorem bigEndianWords_getD : ∀ (b : List Byte) (k : Nat), k < b.length / 2 →
    (bigEndianWords b).getD k 0 = BitVec.ofNat 16 ((b.getD (2 * k) 0).toNat * 256 + (b.getD (2 * k + 1) 0).toNat)
  | [], _, h => by simp at h
  | [_], _, h => by simp at h
  | x :: y :: r, 0, _ => by
    apply BitVec.eq_of_toNat_eq
    have hx := x.isLt
    have hy := y.isLt
    simp only [bigEndianWords, List.getD_cons_zero, List.getD_cons_succ, append_toNat, BitVec.toNat_ofNat]
    simp; omega
  | x :: y :: r, k + 1, h => by
    have ih := bigEndianWords_getD r k (by simp at h; omega)
    simp only [bigEndianWords, List.getD_cons_succ, ih]
    rw [show 2 * (k + 1) = 2 * k + 1 + 1 by omega]
    simp only [List.getD_cons_succ]

theorem origin_toNat {b : Image} (h : 2 ≤ b.length) :
    (Image.origin b).toNat = (b.getD 0 0).toNat * 256 + (b.getD 1 0).toNat := by
  match b, h with
  | hi :: lo :: _, _ => exact append_toNat hi lo

/-- A well-formed image loads: its words are stored from its origin on. -/
theorem loadImage_wf {b : Image} (m : Memory) (h : Image.wf b = true) :
    loadImage b m = .memory (storeWords (bigEndianWords (b.drop 2)) (Image.origin b).toNat m) := by
  simp only [Image.wf, Bool.and_eq_true] at h
  simp [loadImage, h]

/-- Any other image is refused, as malformed before anything else (R204, R205). -/
theorem loadImage_not_wf {b : Image} (m : Memory) (h : Image.wf b = false) :
    loadImage b m = .failed (if Image.longEnough b && Image.wholeWords b then .pastTop else .malformed) := by
  unfold loadImage
  split
  · rename_i h1
    rw [if_neg (by simp_all [Image.wf])]
  · rfl

/-- Word k of a loaded image, counted from the origin word, stands at origin + (k - 1) (R203). -/
theorem storedImage_read (b : Image) (origin : Nat) (m : Memory) {k : Nat} (h1 : 1 ≤ k) (hk : k < b.length / 2) :
    Memory.read (storeWords (bigEndianWords (b.drop 2)) origin m) (origin + (k - 1)) =
      BitVec.ofNat 16 ((b.getD (2 * k) 0).toNat * 256 + (b.getD (2 * k + 1) 0).toNat) := by
  have hl : (bigEndianWords (b.drop 2)).length = b.length / 2 - 1 := by
    rw [bigEndianWords_length, List.length_drop]; omega
  rw [storeWords_read, if_pos (by omega), show origin + (k - 1) - origin = k - 1 by omega,
    bigEndianWords_getD _ _ (by rw [List.length_drop]; omega)]
  simp only [List.getD, List.getElem?_drop]
  rw [show 2 + 2 * (k - 1) = 2 * k by omega, show 2 + (2 * (k - 1) + 1) = 2 * k + 1 by omega]

/-- Loading an image changes no word outside it (R203). -/
theorem storedImage_read_outside (b : Image) (origin : Nat) (m : Memory) {a : Nat}
    (ha : a < origin ∨ origin + (b.length / 2 - 1) ≤ a) :
    Memory.read (storeWords (bigEndianWords (b.drop 2)) origin m) a = Memory.read m a := by
  have hl : (bigEndianWords (b.drop 2)).length = b.length / 2 - 1 := by
    rw [bigEndianWords_length, List.length_drop]; omega
  rw [storeWords_read, if_neg (by omega)]

/-- The images of a longer list are loaded over what the first ones leave, unless one of those failed. -/
theorem loadImages_append (bs cs : List Image) (m : Memory) :
    loadImages (bs ++ cs) m =
      match loadImages bs m with
      | .memory m' => loadImages cs m'
      | .failed e => .failed e := by
  induction bs generalizing m with
  | nil => rfl
  | cons b bs ih =>
    simp only [List.cons_append, loadImages]
    cases loadImage b m with
    | memory m' => exact ih m'
    | failed e => rfl

/-- Boot answers a launch state exactly where the images load, and everything but memory is then fixed (R202). -/
theorem boot_ready_iff {images : List Image} {start : Word} {keys : List Byte} {s : State} :
    boot images start keys = .ready s ↔
      ∃ m, loadImages images State.constructed.mem = .memory m ∧
        s = { State.constructed with mem := m, pc := start, run := true, kbq := keys } := by
  unfold boot
  cases loadImages images State.constructed.mem with
  | memory m => simp [eq_comm]
  | failed e => simp

end Sys2Proof.Laws
end

