-- ==== Sys2Proof/Laws/Decode.lean ====
section
/-! SUPPORT. The opcode table is unambiguous, and what `decode` answers follows from one row test. -/

namespace Sys2Proof.Laws

theorem form_mem_all (f : Form) : f ∈ Form.all := by cases f <;> decide

/-- The rows are pairwise disjoint (R88): two rows differ in a bit that both fix. -/
theorem rows_disjoint {f g : Form} (h : f ≠ g) : f.pattern &&& g.mask ≠ g.pattern &&& f.mask := by
  cases f <;> cases g <;> first | exact absurd rfl h | decide

/-- At most one row accepts a word. -/
theorem accepts_unique {w : Word} {f g : Form} (hf : Form.accepts w f = true) (hg : Form.accepts w g = true) :
    f = g := by
  by_contra h
  have hf : w &&& f.mask = f.pattern := by simpa [Form.accepts] using hf
  have hg : w &&& g.mask = g.pattern := by simpa [Form.accepts] using hg
  refine rows_disjoint h ?_
  rw [← hf, ← hg, BitVec.and_assoc, BitVec.and_assoc, BitVec.and_comm f.mask]

/-- A word that has the fixed bits of a row decodes to that row's instruction. -/
theorem decode_of_row {w : Word} {f : Form} (h : w &&& f.mask = f.pattern) : decode w = .instr (Form.build w f) := by
  have hf : Form.accepts w f = true := by simpa [Form.accepts] using h
  unfold decode
  cases hq : Form.all.find? (Form.accepts w) with
  | none => exact absurd hf (List.find?_eq_none.mp hq f (form_mem_all f))
  | some g => rw [accepts_unique hf (List.find?_some hq)]

/-- Whatever decodes, decodes through a row whose fixed bits the word has. -/
theorem row_of_decode {w : Word} {i : Instr} (h : decode w = .instr i) :
    ∃ f : Form, w &&& f.mask = f.pattern ∧ Form.build w f = i := by
  unfold decode at h
  split at h
  · next f hq =>
    exact ⟨f, by simpa [Form.accepts] using List.find?_some hq, by simpa using h⟩
  · simp at h

/-- A word is rejected exactly when no row accepts it. -/
theorem decode_reject_iff {w : Word} :
    (∃ r, decode w = .reject r) ↔ ∀ f : Form, w &&& f.mask ≠ f.pattern := by
  constructor
  · rintro ⟨r, hr⟩ f hf
    rw [decode_of_row hf] at hr
    simp at hr
  · intro h
    cases hd : decode w with
    | reject r => exact ⟨r, rfl⟩
    | instr i =>
      obtain ⟨f, hf, _⟩ := row_of_decode hd
      exact absurd hf (h f)

@[simp] theorem build_form (w : Word) (f : Form) : (Form.build w f).form = f := by cases f <;> rfl

@[simp] theorem ofBits_bits (r : Reg) : Reg.ofBits r.bits = r := by cases r <;> rfl

theorem bits_ofBits (b : BitVec 3) : (Reg.ofBits b).bits = b := by revert b; decide

/-- A field placed clear of a mask. -/
theorem placeAt_and_eq_zero {n : Nat} (v : BitVec n) (lo : Nat) (m : Word)
    (h : ∀ i, i < n → m.getLsbD (lo + i) = false) : placeAt v lo &&& m = 0 := by
  apply BitVec.eq_of_getLsbD_eq
  intro j hj
  by_cases hlo : lo ≤ j ∧ j - lo < n
  · have := h (j - lo) hlo.2
    rw [Nat.add_sub_cancel' hlo.1] at this
    simp [this]
  · have hf : (placeAt v lo).getLsbD j = false := by
      simp only [placeAt, BitVec.getLsbD_shiftLeft, BitVec.getLsbD_setWidth]
      by_cases hl : j < lo
      · simp [hl]
      · have : v.getLsbD (j - lo) = false := BitVec.getLsbD_of_ge v _ (by omega)
        simp [this]
    simp [hf]

/-! Two or three operand fields clear of a mask. -/

theorem placeAt_two_and_eq_zero {n k : Nat} (a : BitVec n) (i : Nat) (b : BitVec k) (j : Nat) (m : Word)
    (ha : ∀ x, x < n → m.getLsbD (i + x) = false) (hb : ∀ x, x < k → m.getLsbD (j + x) = false) :
    (placeAt a i ||| placeAt b j) &&& m = 0 := by
  rw [BitVec.and_comm, BitVec.and_or_distrib_left, BitVec.and_comm m, BitVec.and_comm m,
    placeAt_and_eq_zero a i m ha, placeAt_and_eq_zero b j m hb]
  rfl

theorem placeAt_three_and_eq_zero {n k l : Nat} (a : BitVec n) (i : Nat) (b : BitVec k) (j : Nat) (c : BitVec l) (p : Nat) (m : Word)
    (ha : ∀ x, x < n → m.getLsbD (i + x) = false) (hb : ∀ x, x < k → m.getLsbD (j + x) = false)
    (hc : ∀ x, x < l → m.getLsbD (p + x) = false) :
    (placeAt a i ||| placeAt b j ||| placeAt c p) &&& m = 0 := by
  rw [BitVec.and_comm, BitVec.and_or_distrib_left, BitVec.and_comm m, BitVec.and_comm m,
    placeAt_two_and_eq_zero a i b j m ha hb, placeAt_and_eq_zero c p m hc]
  rfl

/-- The table's own part of every case: pattern and canonical ignored bits have the row's fixed bits. -/
theorem pattern_canonical_and_mask (f : Form) : (f.pattern ||| f.canonicalIgnored) &&& f.mask = f.pattern := by
  cases f <;> decide

/-! ### Fields read back -/

theorem bitsAt_or (a b : Word) (lo n : Nat) : bitsAt (a ||| b) lo n = bitsAt a lo n ||| bitsAt b lo n :=
  BitVec.extractLsb'_or

/-- A field read where it was placed. -/
theorem bitsAt_placeAt_same {n : Nat} (v : BitVec n) (lo : Nat) (h : lo + n ≤ 16) :
    bitsAt (placeAt v lo) lo n = v := by
  apply BitVec.eq_of_getLsbD_eq
  intro j hj
  have h1 : lo + j < 16 := by omega
  have h2 : lo + j - lo = j := by omega
  have h3 : j < 16 := by omega
  simp only [bitsAt, placeAt, BitVec.getLsbD_extractLsb', BitVec.getLsbD_shiftLeft, BitVec.getLsbD_setWidth, hj, h1, h2]
  simp [h3]

/-- A field read clear of where another was placed. -/
theorem bitsAt_placeAt_apart {n k : Nat} (v : BitVec n) (lo lo' : Nat) (h : lo' + k ≤ lo ∨ lo + n ≤ lo') :
    bitsAt (placeAt v lo) lo' k = 0 := by
  apply BitVec.eq_of_getLsbD_eq
  intro j hj
  simp only [bitsAt, placeAt, BitVec.getLsbD_extractLsb', BitVec.getLsbD_shiftLeft, BitVec.getLsbD_setWidth, hj]
  rcases h with h | h
  · have : lo' + j < lo := by omega
    simp [this]
  · have : v.getLsbD (lo' + j - lo) = false := BitVec.getLsbD_of_ge v _ (by omega)
    simp [this]

end Sys2Proof.Laws
end

