-- ==== Sys2Proof/Laws/Registers.lean ====
section
/-! SUPPORT. The register file, and the result write of the seven flag-updating instructions. -/

namespace Sys2Proof.Laws

open Sys2Proof.Machine

theorem get_set_same (f : RegFile) (r : Reg) (v : Word) : (f.set r v).get r = v := by
  cases r <;> rfl

theorem get_set_other (f : RegFile) {r q : Reg} (v : Word) (h : q ≠ r) : (f.set r v).get q = f.get q := by
  cases r <;> cases q <;> first | rfl | exact absurd rfl h

/-- Two register files with the same eight values are equal. -/
theorem regFile_ext {f g : RegFile} (h : ∀ r, f.get r = g.get r) : f = g := by
  obtain ⟨a0, a1, a2, a3, a4, a5, a6, a7⟩ := f
  obtain ⟨b0, b1, b2, b3, b4, b5, b6, b7⟩ := g
  have h0 := h .r0; have h1 := h .r1; have h2 := h .r2; have h3 := h .r3
  have h4 := h .r4; have h5 := h .r5; have h6 := h .r6; have h7 := h .r7
  simp_all [RegFile.get]

@[simp] theorem setReg_reg_same (s : State) (r : Reg) (v : Word) : (s.setReg r v).reg r = v :=
  get_set_same s.regs r v

theorem setReg_reg_other (s : State) {r q : Reg} (v : Word) (h : q ≠ r) : (s.setReg r v).reg q = s.reg q :=
  get_set_other s.regs v h

/-- Reading any register after a write: the written value, or the old one. -/
theorem setReg_reg (s : State) (r q : Reg) (v : Word) :
    (s.setReg r v).reg q = if q = r then v else s.reg q := by
  split
  · next h => rw [h, setReg_reg_same]
  · next h => exact setReg_reg_other s v h

/-! ### writeResult: everything it changes and keeps -/

@[simp] theorem writeResult_pc (d : Reg) (v : Word) (s : State) : (writeResult d v s).pc = s.pc := rfl
@[simp] theorem writeResult_cond (d : Reg) (v : Word) (s : State) : (writeResult d v s).cond = condOf v := rfl
@[simp] theorem writeResult_run (d : Reg) (v : Word) (s : State) : (writeResult d v s).run = s.run := rfl
@[simp] theorem writeResult_stop (d : Reg) (v : Word) (s : State) : (writeResult d v s).stop = s.stop := rfl
@[simp] theorem writeResult_mem (d : Reg) (v : Word) (s : State) : (writeResult d v s).mem = s.mem := rfl
@[simp] theorem writeResult_kbq (d : Reg) (v : Word) (s : State) : (writeResult d v s).kbq = s.kbq := rfl
@[simp] theorem writeResult_con (d : Reg) (v : Word) (s : State) : (writeResult d v s).con = s.con := rfl
@[simp] theorem writeResult_hold (d : Reg) (v : Word) (s : State) : (writeResult d v s).hold = s.hold := rfl

@[simp] theorem writeResult_reg_same (d : Reg) (v : Word) (s : State) : (writeResult d v s).reg d = v :=
  setReg_reg_same s d v

theorem writeResult_reg_other {d q : Reg} (v : Word) (s : State) (h : q ≠ d) :
    (writeResult d v s).reg q = s.reg q :=
  setReg_reg_other s v h

/-- A condition code is one of the three one-hot values (R24, R116). -/
theorem condOf_cases (v : Word) : condOf v = condPos ∨ condOf v = condZro ∨ condOf v = condNeg := by
  unfold condOf
  split
  · exact .inr (.inl rfl)
  · split
    · exact .inr (.inr rfl)
    · exact .inl rfl

end Sys2Proof.Laws
end

