-- ==== Sys2Proof/Laws/Operands.lean ====
section
/-! SUPPORT. Addressing as signed arithmetic, and the branch test bit by bit. -/

namespace Sys2Proof.Laws

open Sys2Proof.Machine

/-- Adding a sign-extended field is adding the signed number the field denotes (R115). -/
theorem add_sext {n : Nat} (base : Word) (offset : BitVec n) :
    base + sext offset = BitVec.ofInt 16 (base.toNat + offset.toInt) := by
  rw [BitVec.ofInt_add]
  simp [sext, BitVec.signExtend]

theorem pcRelative_eq {n : Nat} (offset : BitVec n) (s : State) :
    pcRelative offset s = BitVec.ofInt 16 (s.pc.toNat + offset.toInt) :=
  add_sext s.pc offset

theorem basePlusOffset_eq (base : Reg) (offset6 : BitVec 6) (s : State) :
    basePlusOffset base offset6 s = BitVec.ofInt 16 ((s.reg base).toNat + offset6.toInt) :=
  add_sext (s.reg base) offset6

/-- The bits of a sign-extended field (R115). -/
theorem sext_bit {n : Nat} (v : BitVec n) {k : Nat} (hk : k < 16) :
    (sext v).getLsbD k = if k < n then v.getLsbD k else v.msb := by
  simp only [sext, BitVec.getLsbD_signExtend, hk, decide_true, Bool.true_and]

/-- BR's test as the three pairs n with NEG, z with ZRO, p with POS (R140). -/
theorem branchTaken_eq (nzp : BitVec 3) (s : State) :
    branchTaken nzp s = ((nzp.getLsbD 2 && s.cond.getLsbD 2) || (nzp.getLsbD 1 && s.cond.getLsbD 1) ||
      (nzp.getLsbD 0 && s.cond.getLsbD 0)) := by
  unfold branchTaken
  generalize hc : s.cond.extractLsb' 0 3 = c
  have h2 : s.cond.getLsbD 2 = c.getLsbD 2 := by rw [← hc]; simp
  have h1 : s.cond.getLsbD 1 = c.getLsbD 1 := by rw [← hc]; simp
  have h0 : s.cond.getLsbD 0 = c.getLsbD 0 := by rw [← hc]; simp
  rw [h2, h1, h0]
  clear h2 h1 h0 hc
  revert nzp c
  decide

end Sys2Proof.Laws
end

