-- ==== Sys2Proof/Laws/Ops.lean ====
section
/-! SUPPORT. What each shared operation can do, said once: the keyboard poll, MemRead, the fetch, the
character read. -/

namespace Sys2Proof.Laws

open Sys2Proof.Machine

/-! ### The keyboard poll (R53) -/

theorem keyboardPoll_empty {s : State} (h : s.kbq = []) : keyboardPoll s = memWrite 0xFE00 0 s := by
  simp [keyboardPoll, h, kbsrAddr]

theorem keyboardPoll_pending {s : State} {c : Byte} {rest : List Byte} (h : s.kbq = c :: rest) :
    keyboardPoll s = memWrite 0xFE02 (zext c) (memWrite 0xFE00 0x8000 { s with kbq := rest }) := by
  simp [keyboardPoll, h, kbsrAddr, kbdrAddr, kbReady]

/-- A poll changes the memory and the keyboard queue and nothing else. -/
theorem keyboardPoll_frame (s : State) :
    (keyboardPoll s).regs = s.regs ∧ (keyboardPoll s).pc = s.pc ∧ (keyboardPoll s).cond = s.cond ∧
    (keyboardPoll s).run = s.run ∧ (keyboardPoll s).stop = s.stop ∧ (keyboardPoll s).con = s.con ∧
    (keyboardPoll s).hold = s.hold := by
  unfold keyboardPoll
  split <;> exact ⟨rfl, rfl, rfl, rfl, rfl, rfl, rfl⟩

/-! ### MemRead (R52) -/

theorem memRead_plain {a : Word} (s : State) (h : a ≠ 0xFE00) : memRead a s = (s.cell a, s) := by
  unfold memRead
  rw [if_neg (show a ≠ kbsrAddr from h)]

theorem memRead_kbsr (s : State) : memRead 0xFE00 s = ((keyboardPoll s).cell 0xFE00, keyboardPoll s) := rfl

/-- What a read of KBSR returns: 0x8000 when a character was pending, else zero. -/
theorem memRead_kbsr_value (s : State) : (memRead 0xFE00 s).1 = if s.kbq = [] then 0 else 0x8000 := by
  rw [memRead_kbsr]
  cases h : s.kbq with
  | nil => rw [keyboardPoll_empty h, memWrite_cell, if_pos rfl, if_pos rfl]
  | cons c rest =>
    rw [keyboardPoll_pending h, memWrite_cell, memWrite_cell, if_neg (by decide), if_pos rfl, if_neg (by simp)]

/-- MemRead changes at most the memory and the keyboard queue. -/
theorem memRead_frame (a : Word) (s : State) :
    (memRead a s).2.regs = s.regs ∧ (memRead a s).2.pc = s.pc ∧ (memRead a s).2.cond = s.cond ∧
    (memRead a s).2.run = s.run ∧ (memRead a s).2.stop = s.stop ∧ (memRead a s).2.con = s.con ∧
    (memRead a s).2.hold = s.hold := by
  by_cases h : a = 0xFE00
  · subst h; exact keyboardPoll_frame s
  · rw [memRead_plain s h]; exact ⟨rfl, rfl, rfl, rfl, rfl, rfl, rfl⟩

@[simp] theorem memRead_regs (a : Word) (s : State) : (memRead a s).2.regs = s.regs := (memRead_frame a s).1
@[simp] theorem memRead_pc (a : Word) (s : State) : (memRead a s).2.pc = s.pc := (memRead_frame a s).2.1
@[simp] theorem memRead_cond (a : Word) (s : State) : (memRead a s).2.cond = s.cond := (memRead_frame a s).2.2.1
@[simp] theorem memRead_run (a : Word) (s : State) : (memRead a s).2.run = s.run := (memRead_frame a s).2.2.2.1
@[simp] theorem memRead_stop (a : Word) (s : State) : (memRead a s).2.stop = s.stop :=
  (memRead_frame a s).2.2.2.2.1
@[simp] theorem memRead_con (a : Word) (s : State) : (memRead a s).2.con = s.con :=
  (memRead_frame a s).2.2.2.2.2.1
@[simp] theorem memRead_hold (a : Word) (s : State) : (memRead a s).2.hold = s.hold :=
  (memRead_frame a s).2.2.2.2.2.2
@[simp] theorem memRead_reg (a : Word) (s : State) (r : Reg) : (memRead a s).2.reg r = s.reg r := by
  simp [State.reg]

/-- The value returned is the cell as the read leaves it. -/
theorem memRead_value (a : Word) (s : State) : (memRead a s).1 = (memRead a s).2.cell a := rfl

/-- A read keeps the canonical form. -/
theorem memRead_wf {a : Word} {s : State} (h : Memory.wf s.mem = true) :
    Memory.wf (memRead a s).2.mem = true := by
  by_cases ha : a = 0xFE00
  · subst ha
    rw [memRead_kbsr]
    cases hk : s.kbq with
    | nil => rw [keyboardPoll_empty hk]; exact memWrite_wf h
    | cons c rest => rw [keyboardPoll_pending hk]; exact memWrite_wf (memWrite_wf h)
  · rw [memRead_plain s ha]; exact h

/-- A read takes at most the first character of the keyboard queue, and only at KBSR. -/
theorem memRead_kbq (a : Word) (s : State) :
    (memRead a s).2.kbq = if a = 0xFE00 then s.kbq.tail else s.kbq := by
  split
  · next h =>
    subst h
    rw [memRead_kbsr]
    cases hk : s.kbq with
    | nil => rw [keyboardPoll_empty hk]; exact hk
    | cons c rest => rw [keyboardPoll_pending hk]; rfl
  · next h => rw [memRead_plain s h]

/-- A read changes no word but the two keyboard cells. -/
theorem memRead_read_other (a : Word) (s : State) {b : Nat} (h1 : b ≠ 0xFE00) (h2 : b ≠ 0xFE02) :
    Memory.read (memRead a s).2.mem b = Memory.read s.mem b := by
  by_cases h : a = 0xFE00
  · subst h
    rw [memRead_kbsr]
    cases hk : s.kbq with
    | nil => rw [keyboardPoll_empty hk, memWrite_read]; exact if_neg h1
    | cons c rest =>
      rw [keyboardPoll_pending hk, memWrite_read, memWrite_read]
      exact (if_neg h2).trans (if_neg h1)
  · rw [memRead_plain s h]

/-! ### The fetch (R111, R112) -/

theorem fetch_word (s : State) : (fetch s).1 = (memRead s.pc s).1 := rfl

theorem fetch_state (s : State) : (fetch s).2 = (memRead s.pc s).2.setPc (incrementPc s.pc) := by
  simp [fetch]

theorem incrementPc_below {pc : Word} (h : pc ≠ 0xFFFF) : incrementPc pc = pc + 1 := if_neg h

theorem incrementPc_top : incrementPc 0xFFFF = 0xFFFF := rfl

/-! ### ReadChar inside GETC and IN (R122) -/

theorem readCharThen_empty {h : HeldRead} {s : State} (hk : s.kbq = []) :
    readCharThen h s = { s with hold := some h } := by
  simp [readCharThen, hk]

theorem readCharThen_pending {h : HeldRead} {s : State} {c : Byte} {rest : List Byte} (hk : s.kbq = c :: rest) :
    readCharThen h s = finishRead h c { s with kbq := rest, hold := none } := by
  simp [readCharThen, hk]

/-- The zero-extended code, as a number. -/
theorem zext_eq_ofNat (c : Byte) : zext c = BitVec.ofNat 16 c.toNat := by
  apply BitVec.eq_of_toNat_eq
  simp [zext]

end Sys2Proof.Laws
end

