-- ==== Sys2Proof/Laws/PerInstr.lean ====
section
/-! SUPPORT. Per-instruction facts, one lemma per constructor of `Instr`.

Family OwnRow: an encoded instruction has the fixed bits of its own table row, so no operand runs into the
opcode, mode or vector bits. -/

namespace Sys2Proof.Laws.OwnRow

/-- The encoding of `i` passes the row test of R88 for its own row. -/
def Statement (i : Instr) : Prop := encode i &&& i.form.mask = i.form.pattern

/-- How each case goes: the operand bits are clear of the mask, and the rest is a fact about the table. -/
theorem of_operands {i : Instr} (f : Form) (hf : i.form = f) (h : i.operandBits &&& f.mask = 0) : Statement i := by
  subst hf
  unfold Statement encode
  have : i.form.pattern ||| i.operandBits ||| i.form.canonicalIgnored =
      i.operandBits ||| (i.form.pattern ||| i.form.canonicalIgnored) := by
    rw [BitVec.or_comm i.form.pattern, BitVec.or_assoc]
  rw [this, BitVec.and_comm, BitVec.and_or_distrib_left, BitVec.and_comm, h, BitVec.and_comm, pattern_canonical_and_mask]
  simp

theorem br (nzp : BitVec 3) (offset9 : BitVec 9) : Statement (.br nzp offset9) :=
  of_operands .br rfl (placeAt_two_and_eq_zero nzp 9 offset9 0 _ (by decide) (by decide))

theorem addReg (dr sr1 sr2 : Reg) : Statement (.addReg dr sr1 sr2) :=
  of_operands .addReg rfl (placeAt_three_and_eq_zero dr.bits 9 sr1.bits 6 sr2.bits 0 _ (by decide) (by decide) (by decide))

theorem addImm (dr sr1 : Reg) (imm5 : BitVec 5) : Statement (.addImm dr sr1 imm5) :=
  of_operands .addImm rfl (placeAt_three_and_eq_zero dr.bits 9 sr1.bits 6 imm5 0 _ (by decide) (by decide) (by decide))

theorem ld (dr : Reg) (offset9 : BitVec 9) : Statement (.ld dr offset9) :=
  of_operands .ld rfl (placeAt_two_and_eq_zero dr.bits 9 offset9 0 _ (by decide) (by decide))

theorem st (sr : Reg) (offset9 : BitVec 9) : Statement (.st sr offset9) :=
  of_operands .st rfl (placeAt_two_and_eq_zero sr.bits 9 offset9 0 _ (by decide) (by decide))

theorem jsr (offset11 : BitVec 11) : Statement (.jsr offset11) :=
  of_operands .jsr rfl (placeAt_and_eq_zero offset11 0 _ (by decide))

theorem jsrr (base : Reg) : Statement (.jsrr base) :=
  of_operands .jsrr rfl (placeAt_and_eq_zero base.bits 6 _ (by decide))

theorem andReg (dr sr1 sr2 : Reg) : Statement (.andReg dr sr1 sr2) :=
  of_operands .andReg rfl (placeAt_three_and_eq_zero dr.bits 9 sr1.bits 6 sr2.bits 0 _ (by decide) (by decide) (by decide))

theorem andImm (dr sr1 : Reg) (imm5 : BitVec 5) : Statement (.andImm dr sr1 imm5) :=
  of_operands .andImm rfl (placeAt_three_and_eq_zero dr.bits 9 sr1.bits 6 imm5 0 _ (by decide) (by decide) (by decide))

theorem ldr (dr base : Reg) (offset6 : BitVec 6) : Statement (.ldr dr base offset6) :=
  of_operands .ldr rfl (placeAt_three_and_eq_zero dr.bits 9 base.bits 6 offset6 0 _ (by decide) (by decide) (by decide))

theorem str (sr base : Reg) (offset6 : BitVec 6) : Statement (.str sr base offset6) :=
  of_operands .str rfl (placeAt_three_and_eq_zero sr.bits 9 base.bits 6 offset6 0 _ (by decide) (by decide) (by decide))

theorem rti : Statement .rti :=
  of_operands .rti rfl (by decide)

theorem not (dr sr1 : Reg) : Statement (.not dr sr1) :=
  of_operands .not rfl (placeAt_two_and_eq_zero dr.bits 9 sr1.bits 6 _ (by decide) (by decide))

theorem ldi (dr : Reg) (offset9 : BitVec 9) : Statement (.ldi dr offset9) :=
  of_operands .ldi rfl (placeAt_two_and_eq_zero dr.bits 9 offset9 0 _ (by decide) (by decide))

theorem sti (sr : Reg) (offset9 : BitVec 9) : Statement (.sti sr offset9) :=
  of_operands .sti rfl (placeAt_two_and_eq_zero sr.bits 9 offset9 0 _ (by decide) (by decide))

theorem jmp (base : Reg) : Statement (.jmp base) :=
  of_operands .jmp rfl (placeAt_and_eq_zero base.bits 6 _ (by decide))

theorem res : Statement .res :=
  of_operands .res rfl (by decide)

theorem lea (dr : Reg) (offset9 : BitVec 9) : Statement (.lea dr offset9) :=
  of_operands .lea rfl (placeAt_two_and_eq_zero dr.bits 9 offset9 0 _ (by decide) (by decide))

theorem getc : Statement .getc :=
  of_operands .getc rfl (by decide)

theorem out : Statement .out :=
  of_operands .out rfl (by decide)

theorem puts : Statement .puts :=
  of_operands .puts rfl (by decide)

theorem in_ : Statement .in_ :=
  of_operands .in_ rfl (by decide)

theorem putsp : Statement .putsp :=
  of_operands .putsp rfl (by decide)

theorem halt : Statement .halt :=
  of_operands .halt rfl (by decide)

end Sys2Proof.Laws.OwnRow
end

