-- ==== Sys2Proof/Laws/Walk.lean ====
section
/-! SUPPORT. The string walk of PUTS and PUTSP: what it keeps, and that it always meets a zero word.

A walk passes KBSR once in every 65536 reads. Each pass takes a pending character, and the pass that finds
none reads zero and ends the walk (R218). No character arrives inside a step (R119, R193), so the number of
reads left before the walk is sure to end falls by one with every read. -/

namespace Sys2Proof.Laws

open Sys2Proof.Machine

variable (chars : Word → List Word)

theorem stringWalk_zero (a : Word) (s : State) : stringWalk chars 0 a s = none := rfl

theorem stringWalk_succ (n : Nat) (a : Word) (s : State) :
    stringWalk chars (n + 1) a s =
      if (memRead a s).1 = 0 then some (memRead a s).2
      else stringWalk chars n (a + 1) (consoleWriteAll (chars (memRead a s).1) (memRead a s).2) := rfl

/-- A walk changes at most memory, the keyboard queue and the console, and the console only grows. -/
theorem stringWalk_frame {n : Nat} {a : Word} {s t : State} (h : stringWalk chars n a s = some t) :
    t.regs = s.regs ∧ t.pc = s.pc ∧ t.cond = s.cond ∧ t.run = s.run ∧ t.stop = s.stop ∧ t.hold = s.hold ∧
    ∃ out, t.con = s.con ++ out := by
  induction n generalizing a s with
  | zero => simp [stringWalk_zero] at h
  | succ n ih =>
    rw [stringWalk_succ] at h
    split at h
    · cases h
      exact ⟨by simp, by simp, by simp, by simp, by simp, by simp, [], by simp⟩
    · obtain ⟨h1, h2, h3, h4, h5, h6, out, h7⟩ := ih h
      exact ⟨by simpa using h1, by simpa using h2, by simpa using h3, by simpa using h4, by simpa using h5,
        by simpa using h6, _, by rw [h7]; simp [List.append_assoc]; rfl⟩

/-- A walk keeps the canonical form of memory. -/
theorem stringWalk_wf {n : Nat} {a : Word} {s t : State} (h : stringWalk chars n a s = some t)
    (hm : Memory.wf s.mem = true) : Memory.wf t.mem = true := by
  induction n generalizing a s with
  | zero => simp [stringWalk_zero] at h
  | succ n ih =>
    rw [stringWalk_succ] at h
    split at h
    · cases h; exact memRead_wf hm
    · exact ih h (memRead_wf hm)

/-- A read takes characters from the front of the keyboard queue only. -/
theorem memRead_kbq_front (a : Word) (s : State) : ∃ taken, s.kbq = taken ++ (memRead a s).2.kbq := by
  rw [memRead_kbq]
  split
  · cases s.kbq with
    | nil => exact ⟨[], rfl⟩
    | cons c rest => exact ⟨[c], rfl⟩
  · exact ⟨[], rfl⟩

/-- And so does a walk. -/
theorem stringWalk_kbq_front {n : Nat} {a : Word} {s t : State} (h : stringWalk chars n a s = some t) :
    ∃ taken, s.kbq = taken ++ t.kbq := by
  induction n generalizing a s with
  | zero => simp [stringWalk_zero] at h
  | succ n ih =>
    rw [stringWalk_succ] at h
    obtain ⟨front, hf⟩ := memRead_kbq_front a s
    split at h
    · cases h; exact ⟨front, hf⟩
    · obtain ⟨more, hm⟩ := ih h
      exact ⟨front ++ more, by rw [hf, List.append_assoc]; congr 1⟩

/-- A walk changes no word but the two keyboard cells. -/
theorem stringWalk_read {n : Nat} {a : Word} {s t : State} (h : stringWalk chars n a s = some t) {b : Nat}
    (h1 : b ≠ 0xFE00) (h2 : b ≠ 0xFE02) : Memory.read t.mem b = Memory.read s.mem b := by
  induction n generalizing a s with
  | zero => simp [stringWalk_zero] at h
  | succ n ih =>
    rw [stringWalk_succ] at h
    split at h
    · cases h; exact memRead_read_other a s h1 h2
    · exact (ih h).trans (memRead_read_other a s h1 h2)

/-! ### Every walk ends -/

/-- How many reads a walk at `a` may still make before it is sure to have ended. -/
def readsLeft (a : Word) (s : State) : Nat := s.kbq.length * 65536 + ((0xFE00 : Word) - a).toNat

/-- Every read that does not end the walk takes one off the reads left. -/
theorem readsLeft_falls {a : Word} {s : State} (h : (memRead a s).1 ≠ 0) :
    readsLeft (a + 1) (memRead a s).2 + 1 ≤ readsLeft a s := by
  unfold readsLeft
  rw [memRead_kbq]
  by_cases ha : a = 0xFE00
  · subst ha
    rw [memRead_kbsr_value] at h
    cases hk : s.kbq with
    | nil => simp [hk] at h
    | cons c rest => simp; omega
  · rw [if_neg ha]
    bv_omega

/-- With as many reads as are left, and one more, a walk meets a zero word. -/
theorem stringWalk_reaches_zero {n : Nat} {a : Word} {s : State} (h : readsLeft a s < n) :
    ∃ t, stringWalk chars n a s = some t := by
  induction n generalizing a s with
  | zero => omega
  | succ n ih =>
    rw [stringWalk_succ]
    split
    · exact ⟨_, rfl⟩
    · next hz =>
      have := readsLeft_falls hz
      exact ih (a := a + 1) (s := consoleWriteAll (chars (memRead a s).1) (memRead a s).2)
        (show readsLeft (a + 1) (memRead a s).2 < n by omega)

/-- `walkFuel` is enough from every address. -/
theorem readsLeft_lt_walkFuel (a : Word) (s : State) : readsLeft a s < walkFuel s := by
  unfold readsLeft walkFuel
  have : ((0xFE00 : Word) - a).toNat < 65536 := BitVec.isLt _
  omega

/-- So PUTS and PUTSP never raise `endlessWalk`. -/
theorem writeString_next (s : State) :
    ∃ t, stringWalk chars (walkFuel s) (s.reg .r0) s = some t ∧
      writeString chars s = .next (consoleWrite newline t) := by
  obtain ⟨t, ht⟩ := stringWalk_reaches_zero chars (readsLeft_lt_walkFuel (s.reg .r0) s)
  exact ⟨t, ht, by simp [writeString, ht]⟩

end Sys2Proof.Laws
end

