-- ==== Sys2Proof/Tests/Slice0.lean ====
section
/-! SUPPORT. Tests. Expected values are those of spec/95_test_vectors.md (the id stands in the theorem's name or
comment) or are computed by hand from the rule cited; then a witness for every statement that has hypotheses. -/

namespace Sys2Proof.Tests

open Sys2Proof.Machine

/-! ## Helpers -/

/-- The default start with a nonzero word at `pc`. -/
def at_ (pc w : Word) : State := { State.reset with pc := pc, mem := [(pc.toNat, w)] }

def withReg (r : Reg) (v : Word) (s : State) : State := s.setReg r v
def withCell (a v : Word) (s : State) : State := memWrite a v s
def withCond (c : Word) (s : State) : State := { s with cond := c }
def withKeys (ks : List Byte) (s : State) : State := { s with kbq := ks }

/-- What one step leaves, seen through `f`; `none` where there is no next state. -/
def after {α : Type} (s : State) (f : State → α) : Option α :=
  match step s with
  | .next t => some (f t)
  | .fault _ => none
  | .refused _ => none

def nextOf (o : Host.Outcome State Fault Refusal) : Option State :=
  match o with
  | .next t => some t
  | .fault _ => none
  | .refused _ => none

def faultOf (o : Host.Outcome State Fault Refusal) : Option Fault :=
  match o with
  | .next _ => none
  | .fault r => some r
  | .refused _ => none

theorem next_of_nextOf {o : Host.Outcome State Fault Refusal} {t : State} (h : nextOf o = some t) : o = .next t := by
  cases o <;> simp_all [nextOf]

/-! ## WellFormed: an ill-formed image for each check (VL2, VL4, VL7), and well-formed ones -/

theorem test_image_too_short : Image.longEnough [0x30] = false := by decide
theorem test_image_odd : Image.wholeWords [0x30, 0x00, 0x12] = false := by decide
theorem test_image_past_top : Image.insideMemory [0xFF, 0xFF, 0x00, 0x01, 0x00, 0x02] = false := by decide
theorem test_image_wf : Image.wf [0x30, 0x00, 0x12, 0x34] = true ∧ Image.wf [0xFF, 0xFF, 0x00, 0x01] = true := by decide
theorem test_memory_not_rising : Memory.wf [(2, 1), (1, 1)] = false := by decide
theorem test_memory_lists_zero : Memory.wf [(1, 0)] = false := by decide
theorem test_memory_outside : Memory.wf [(65536, 1)] = false := by decide

/-! ## Decoding: words written out bit by bit from the encodings of R82 and R85 -/

/-- 0000 nzp ooooooooo: BRp, offset -3 (V40). -/
theorem test_decode_br : decode 0b0000001111111101 = .instr (.br 0b001 0b111111101) := by decide
/-- 0001 ddd sss 0 xx ttt, with and without the ignored bits (V10, V17). -/
theorem test_decode_addReg : decode 0b0001000001000010 = .instr (.addReg .r0 .r1 .r2) ∧
    decode 0b0001000001011010 = .instr (.addReg .r0 .r1 .r2) := by decide
/-- 0001 ddd sss 1 iiiii: ADD R1,R1,#-1 (V12). -/
theorem test_decode_addImm : decode 0b0001001001111111 = .instr (.addImm .r1 .r1 0b11111) := by decide
/-- 0010 ddd ooooooooo (V60). -/
theorem test_decode_ld : decode 0b0010010000000011 = .instr (.ld .r2 3) := by decide
/-- 0011 sss ooooooooo (V70). -/
theorem test_decode_st : decode 0b0011100000000110 = .instr (.st .r4 6) := by decide
/-- 0100 1 ooooooooooo (V54, V56). -/
theorem test_decode_jsr : decode 0b0100100000000010 = .instr (.jsr 2) ∧
    decode 0b0100110000000000 = .instr (.jsr 0b10000000000) := by decide
/-- 0100 0 xx bbb xxxxxx (V59, V5B). -/
theorem test_decode_jsrr : decode 0b0100000010000000 = .instr (.jsrr .r2) ∧
    decode 0b0100011010111111 = .instr (.jsrr .r2) := by decide
/-- 0101 ddd sss 0 xx ttt (V20). -/
theorem test_decode_andReg : decode 0b0101011001000010 = .instr (.andReg .r3 .r1 .r2) := by decide
/-- 0101 ddd sss 1 iiiii (VD5). -/
theorem test_decode_andImm : decode 0b0101111111111111 = .instr (.andImm .r7 .r7 0b11111) := by decide
/-- 0110 ddd bbb oooooo (V69). -/
theorem test_decode_ldr : decode 0b0110011001111111 = .instr (.ldr .r3 .r1 0b111111) := by decide
/-- 0111 sss bbb oooooo (V76). -/
theorem test_decode_str : decode 0b0111100001000010 = .instr (.str .r4 .r1 2) := by decide
/-- 1000 and 1101, whatever follows (VD6, VD7). -/
theorem test_decode_rti_res : decode 0b1000000100100011 = .instr .rti ∧
    decode 0b1101010001010110 = .instr .res := by decide
/-- 1001 ddd sss xxxxxx (V30, V31). -/
theorem test_decode_not : decode 0b1001110101111111 = .instr (.not .r6 .r5) ∧
    decode 0b1001110101000000 = .instr (.not .r6 .r5) := by decide
/-- 1010 ddd ooooooooo and 1011 sss ooooooooo (V64, V73). -/
theorem test_decode_ldi_sti : decode 0b1010010000000100 = .instr (.ldi .r2 4) ∧
    decode 0b1011110000000110 = .instr (.sti .r6 6) := by decide
/-- 1100 xxx bbb xxxxxx: RET, and JMP R7 with all ignored bits set (V51, V52). -/
theorem test_decode_jmp : decode 0b1100000111000000 = .instr (.jmp .r7) ∧
    decode 0b1100111111111111 = .instr (.jmp .r7) := by decide
/-- 1110 ddd ooooooooo (V6C). -/
theorem test_decode_lea : decode 0b1110001000001001 = .instr (.lea .r1 9) := by decide
/-- 1111 xxxx vvvvvvvv (VD8, VD9). -/
theorem test_decode_traps : decode 0b1111000000100000 = .instr .getc ∧ decode 0b1111000000100001 = .instr .out ∧
    decode 0b1111000000100010 = .instr .puts ∧ decode 0b1111101000100011 = .instr .in_ ∧
    decode 0b1111000000100100 = .instr .putsp ∧ decode 0b1111000000100101 = .instr .halt := by decide
/-- The vectors on either side of the six are rejected (VDA). -/
theorem test_decode_rejects : decode 0xF01F = .reject (.unlistedTrapVector 0x1F) ∧
    decode 0xF026 = .reject (.unlistedTrapVector 0x26) ∧ decode 0xF000 = .reject (.unlistedTrapVector 0x00) ∧
    decode 0xFFFF = .reject (.unlistedTrapVector 0xFF) := by decide
/-- Words the assembler of R90 writes: ones in NOT's ignored bits, zeros elsewhere. -/
theorem test_encode : encode (.not .r6 .r5) = 0x9D7F ∧ encode (.jmp .r7) = 0xC1C0 ∧ encode (.jsrr .r2) = 0x4080 ∧
    encode (.br 0b001 0x1FD) = 0x03FD ∧ encode (.ldr .r3 .r1 0x3F) = 0x667F ∧ encode .halt = 0xF025 := by decide
theorem test_decodeTableWord : decodeTableWord 16 0x5FFF = some (.andImm .r7 .r7 0x1F) ∧
    decodeTableWord 16 0xF026 = none := by decide

/-! ## Sign extension and flags (V01 to V0H) -/

theorem test_sext : sext (0x10 : BitVec 5) = 0xFFF0 ∧ sext (0x1F : BitVec 6) = 0x001F ∧
    sext (0x100 : BitVec 9) = 0xFF00 ∧ sext (0x7FF : BitVec 11) = 0xFFFF ∧ sext (1 : BitVec 1) = 0xFFFF := by decide
theorem test_setCC : (setCC 0 State.reset).cond = 0b010 ∧ (setCC 0x7FFF State.reset).cond = 0b001 ∧
    (setCC 0x8000 State.reset).cond = 0b100 := by decide

/-! ## ADD, AND, NOT -/

theorem test_addReg_V10 : after (withReg .r1 1 (withReg .r2 2 (at_ 0x3000 0x1042)))
    (fun t => (t.reg .r0, t.reg .r1, t.cond, t.pc)) = some (3, 1, 0b001, 0x3001) := by decide
theorem test_addReg_V15_wraps : after (withReg .r1 0x8000 (at_ 0x3000 0x1241))
    (fun t => (t.reg .r1, t.cond)) = some (0, 0b010) := by decide
theorem test_addImm_V12 : after (at_ 0x3000 0x127F) (fun t => (t.reg .r1, t.cond)) = some (0xFFFF, 0b100) := by decide
theorem test_addImm_V14 : after (withReg .r1 0x7FFF (at_ 0x3000 0x1261))
    (fun t => (t.reg .r1, t.cond)) = some (0x8000, 0b100) := by decide
theorem test_andReg_V20 : after (withReg .r1 0xFF0F (withReg .r2 0x0FF0 (at_ 0x3000 0x5642)))
    (fun t => (t.reg .r3, t.cond)) = some (0x0F00, 0b001) := by decide
theorem test_andImm_V22 : after (withReg .r1 0xABCD (at_ 0x3000 0x506F))
    (fun t => (t.reg .r0, t.cond)) = some (0x000D, 0b001) := by decide
theorem test_andImm_V24 : after (withReg .r1 0xFFFF (at_ 0x3000 0x5470))
    (fun t => (t.reg .r2, t.cond)) = some (0xFFF0, 0b100) := by decide
theorem test_not_V30 : after (withReg .r5 5 (at_ 0x3000 0x9D7F))
    (fun t => (t.reg .r6, t.cond)) = some (0xFFFA, 0b100) := by decide
theorem test_not_V32 : after (withReg .r1 0x8000 (at_ 0x3000 0x907F))
    (fun t => (t.reg .r0, t.cond)) = some (0x7FFF, 0b001) := by decide

/-! ## Control -/

theorem test_br_V40 : after (withCond 0b001 (at_ 0x3005 0x03FD)) State.pc = some 0x3003 := by decide
theorem test_br_V46_wraps : after (withCond 0b010 (at_ 0xFFFE 0x0402)) State.pc = some 0x0001 := by decide
theorem test_jmp_V52 : after (withReg .r7 0x1234 (at_ 0x3000 0xCFFF)) State.pc = some 0x1234 := by decide
theorem test_jsr_V54 : after (at_ 0x3001 0x4802) (fun t => (t.reg .r7, t.pc)) = some (0x3002, 0x3004) := by decide
theorem test_jsr_V58_saturates : after (at_ 0xFFFF 0x4800)
    (fun t => (t.reg .r7, t.pc)) = some (0xFFFF, 0xFFFF) := by decide
theorem test_jsrr_V5C : after (withCond 0b100 (withReg .r2 0x5000 (at_ 0x3000 0x4080)))
    (fun t => (t.reg .r7, t.pc, t.cond)) = some (0x3001, 0x5000, 0b100) := by decide
theorem test_jsrr_V5A_r7 : after (withReg .r7 0x5000 (at_ 0x3000 0x41C0))
    (fun t => (t.reg .r7, t.pc)) = some (0x3001, 0x3001) := by decide
theorem test_rti_V5E : after (withCond 0b001 (at_ 0x3000 0x8FFF)) id =
    some { withCond 0b001 (at_ 0x3000 0x8FFF) with pc := 0x3001 } := by decide
theorem test_res_V5G : after (withCond 0b010 (at_ 0xFFFF 0xDABC)) id = some (withCond 0b010 (at_ 0xFFFF 0xDABC)) := by decide

/-! ## Loads and stores -/

theorem test_ld_V61_itself : after (at_ 0x3000 0x25FF) (fun t => (t.reg .r2, t.cond)) = some (0x25FF, 0b001) := by decide
theorem test_ld_V63_wraps : after (withCell 0 0x77 (at_ 0xFFFF 0x2001))
    (fun t => (t.reg .r0, t.pc)) = some (0x0077, 0xFFFF) := by decide
theorem test_ldi_V64 : after (withCell 0x3008 5 (withCell 0x3004 0x3008 (at_ 0x2FFF 0xA404)))
    (fun t => (t.reg .r2, t.cond, t.pc)) = some (5, 0b001, 0x3000) := by decide
theorem test_ldi_V65_polls : after (withKeys [0x41] (withCell 0x3002 0xFE00 (at_ 0x3000 0xA201)))
    (fun t => (t.reg .r1, t.cond, t.cell 0xFE00, t.cell 0xFE02, t.kbq)) = some (0x8000, 0b100, 0x8000, 0x0041, []) := by decide
theorem test_ldr_V69_wraps : after (withCell 0xFFFF 0x1234 (at_ 0x3000 0x667F)) (fun t => t.reg .r3) = some 0x1234 := by decide
theorem test_ldr_V6A_base_is_dest : after (withCell 0x4000 7 (withReg .r1 0x4000 (at_ 0x3000 0x6240)))
    (fun t => t.reg .r1) = some 7 := by decide
theorem test_lea_V6C : after (at_ 0x3000 0xE209) (fun t => (t.reg .r1, t.cond)) = some (0x300A, 0b001) := by decide
theorem test_lea_V6F_zero : after (withCell 0 0xE1FF { State.reset with pc := 0 })
    (fun t => (t.reg .r0, t.cond, t.pc)) = some (0, 0b010, 1) := by decide
theorem test_st_V70 : after (withCond 0b100 (withReg .r4 5 (at_ 0x3008 0x3806)))
    (fun t => (t.cell 0x300F, t.cond)) = some (5, 0b100) := by decide
theorem test_sti_V74_no_poll : after (withReg .r0 0x55 (withKeys [0x41] (withCell 0x3002 0xFE00 (at_ 0x3000 0xB001))))
    (fun t => (t.cell 0xFE00, t.cell 0xFE02, t.kbq)) = some (0x0055, 0, [0x41]) := by decide
theorem test_sti_V7A_pointer_polls : after (withReg .r0 0x77 (withKeys [0x41] (at_ 0xFDFF 0xB000)))
    (fun t => (t.cell 0xFE00, t.cell 0xFE02, t.cell 0x8000, t.kbq, t.pc)) = some (0x8000, 0x41, 0x77, [], 0xFE00) := by decide
theorem test_str_V77_wraps : after (withReg .r0 0xBEEF (at_ 0x3000 0x7060)) (fun t => t.cell 0xFFE0) = some 0xBEEF := by decide
theorem test_str_V79_same_register : after (withReg .r1 0x4000 (at_ 0x3000 0x7240)) (fun t => t.cell 0x4000) = some 0x4000 := by decide

/-! ## Traps -/

theorem test_getc_V83 : after (withCond 0b010 (withKeys [0xFF] (at_ 0x3000 0xF020)))
    (fun t => (t.reg .r0, t.cond, t.con, t.kbq)) = some (0x00FF, 0b010, [], []) := by decide
theorem test_getc_V81_held : after (withReg .r0 0xFFFF (at_ 0x3000 0xF020)) id =
    some { withReg .r0 0xFFFF (at_ 0x3000 0xF020) with pc := 0x3001, hold := some .getc } := by decide
theorem test_out_V86 : after (withReg .r0 0x1241 (at_ 0x3000 0xF021))
    (fun t => (t.con, t.reg .r0)) = some ([0x0041], 0x1241) := by decide
theorem test_puts_V8B_V8C : after (withReg .r0 0xFFFF (withCell 0xFFFF 0x263A (withCell 0 0x42 (at_ 0x3000 0xF022))))
    (fun t => t.con) = some [0x263A, 0x0042, 0x000A] := by decide
theorem test_puts_V8E_polls : after (withReg .r0 0xFDFF (withCell 0xFDFF 0x41 (withCell 0xFE01 0x43 (withKeys [0x51] (at_ 0x3000 0xF022)))))
    (fun t => (t.con, t.kbq)) = some ([0x0041, 0x8000, 0x0043, 0x0051, 0x000A], []) := by decide
theorem test_in_V8F : after (withKeys [0x79] (at_ 0x3000 0xF023))
    (fun t => (t.con.length, t.con.getLast?, t.reg .r0, t.kbq, t.pc)) = some (20, some 0x0079, 0x0079, [], 0x3001) := by decide
theorem test_in_V8G_held : after (withReg .r0 0x1111 (at_ 0x3000 0xF023))
    (fun t => (t.con.length, t.reg .r0, t.hold, t.pc)) = some (19, 0x1111, some .in_, 0x3001) := by decide
theorem test_putsp_V8H : after (withReg .r0 0x3005 (withCell 0x3005 0x6548 (withCell 0x3006 0x006C (withCell 0x3007 0x4100 (at_ 0x3000 0xF024)))))
    (fun t => t.con) = some [0x48, 0x65, 0x6C, 0x00, 0x41, 0x0A] := by decide
theorem test_putsp_V8J_empty : after (withReg .r0 0x4000 (at_ 0x3000 0xF024)) (fun t => t.con) = some [0x000A] := by decide
theorem test_halt_V8M : after (at_ 0xFFFF 0xF025) (fun t => (t.con, t.run, t.stop, t.pc)) =
    some ([0x48, 0x41, 0x4C, 0x54, 0x0A], false, .haltTrap, 0xFFFF) := by decide

/-! ## The step -/

theorem test_decodeError_V8N : after (at_ 0x3004 0xF026) id =
    some { at_ 0x3004 0xF026 with pc := 0x3005, run := false, stop := .decodeError 0xF026 0x3005 } := by decide
theorem test_decodeError_V8R : after (at_ 0xFFFF 0xFFFF) (fun t => (t.stop, t.pc)) =
    some (.decodeError 0xFFFF 0xFFFF, 0xFFFF) := by decide
theorem test_fetch_V90 : after { State.reset with pc := 0xFE00, kbq := [0x41] }
    (fun t => (t.cell 0xFE00, t.cell 0xFE02, t.kbq, t.pc)) = some (0x8000, 0x0041, [], 0xFE01) := by decide
theorem test_fetch_V91 : after (at_ 0xFE00 0xF025) (fun t => (t.cell 0xFE00, t.run, t.pc)) = some (0, true, 0xFE01) := by decide
theorem test_halted_V92 : faultOf (step { State.reset with run := false, stop := .haltTrap }) = some .halted := by decide
/-- From reset with nothing placed, the first step runs the zero word at 0x3000, a BR that is never taken (V93). -/
theorem test_first_step_from_reset : after State.reset id = some { State.reset with pc := 0x3001 } := by decide
/-- The first word of every table row runs as the first instruction after reset. -/
theorem test_rows_run_from_reset : (Form.all.map fun f =>
    (nextOf (step (State.reset.withFetchWord 16 f.pattern.toNat))).isSome) = List.replicate 24 true := by decide

/-! ## Boot (VL0, VL5, VL9, VLA, VL2, VL7) -/

/-- The launch state with one memory, seen through the launch. -/
def launched (l : Launch) : Option State :=
  match l with
  | .ready s => some s
  | .failed _ => none

theorem test_boot_VL0 : launched (boot [[0x30, 0x00, 0x12, 0x34]] 0x3000 []) =
    some { State.reset with mem := [(0x3000, 0x1234)] } := by decide
theorem test_boot_VL9 : (launched (boot [[0xFE, 0x00, 0x80, 0x00, 0x00, 0x00, 0x00, 0x41]] 0x3000 [])).map State.mem =
    some [(0xFE00, 0x8000), (0xFE02, 0x0041)] := by decide
/-- R205: the later image overwrites the first word of the earlier one and leaves the second. -/
theorem test_boot_later_over_earlier :
    (launched (boot [[0x30, 0x00, 0x12, 0x34, 0x56, 0x78], [0x30, 0x00, 0xAB, 0xCD]] 0x3000 [])).map State.mem =
    some [(0x3000, 0xABCD), (0x3001, 0x5678)] := by decide
theorem test_boot_VL2_VL7 : boot [[0x30]] 0x3000 [] = .failed .malformed ∧
    boot [[0xFF, 0xFF, 0x00, 0x01, 0x00, 0x02]] 0x3000 [] = .failed .pastTop := by decide

/-! ## Witnesses: for every statement with hypotheses, a state and operands that meet them all -/

/-- EncodeOfDecodeAgreesOnFieldBits: a word with every ignored bit set. -/
theorem witness_EncodeOfDecodeAgreesOnFieldBits : decode 0xFF25 = .instr .halt := by decide

/-- FieldsStandWhereTheTableSays: for every clause, the word with every bit set that the mask leaves free. -/
theorem witness_FieldsStandWhereTheTableSays :
    Form.all.map (fun f => (f.pattern ||| ~~~ f.mask) &&& f.mask) = Form.all.map Form.pattern ∧
    (0x0FFF : Word) &&& 0xF000 = 0x0000 ∧ (0x1FDF : Word) &&& 0xF020 = 0x1000 ∧ (0x1FFF : Word) &&& 0xF020 = 0x1020 ∧
    (0x4FFF : Word) &&& 0xF800 = 0x4800 ∧ (0x47FF : Word) &&& 0xF800 = 0x4000 ∧ (0xFF20 : Word) &&& 0xF0FF = 0xF020 := by decide

/-- StepFetchesIncrementsAndRuns, first clause, at reset and at the top of memory. -/
theorem witness_StepFetchesIncrementsAndRuns_decoded :
    (State.reset.run = true ∧ State.reset.hold = none ∧
      decode (memRead State.reset.pc State.reset).1 = .instr (.br 0 0)) ∧
    ((at_ 0xFFFF 0xDABC).run = true ∧ (at_ 0xFFFF 0xDABC).hold = none ∧
      decode (memRead 0xFFFF (at_ 0xFFFF 0xDABC)).1 = .instr .res) := by decide

/-- StepFetchesIncrementsAndRuns, second clause, and DecodeErrorStopsTheCore. -/
theorem witness_DecodeErrorStopsTheCore :
    (at_ 0x3004 0xF026).run = true ∧ (at_ 0x3004 0xF026).hold = none ∧
    decode (memRead (at_ 0x3004 0xF026).pc (at_ 0x3004 0xF026)).1 = .reject (.unlistedTrapVector 0x26) := by decide

/-- HaltedIsEnteredByHaltOrDecodeErrorAndNeverLeft: a halted state, and a step into one by each way. -/
theorem witness_HaltedIsEnteredByHaltOrDecodeErrorAndNeverLeft :
    State.constructed.run = false ∧ (nextOf (step (at_ 0x3000 0xF025))).map State.run = some false ∧
    (nextOf (step (at_ 0x3000 0xF026))).map State.run = some false ∧
    (nextOf (step State.reset)).map State.run = some true := by decide

/-- StepIsDefinedUnlessHaltedOrHeld: a state for each clause. -/
theorem witness_StepIsDefinedUnlessHaltedOrHeld :
    (State.reset.run = true ∧ State.reset.hold = none) ∧
    (({ State.reset with hold := some .in_, kbq := [0] } : State).kbq ≠ []) ∧
    (({ State.reset with hold := some .getc } : State).hold ≠ none ∧ State.reset.kbq = []) ∧
    State.constructed.run = false := by decide

/-- OnlyControlInstructionsWriteThePc: a RES at 0xFFFF. -/
theorem witness_OnlyControlInstructionsWriteThePc :
    (at_ 0xFFFF 0xDABC).hold = none ∧ nextOf (step (at_ 0xFFFF 0xDABC)) = some (at_ 0xFFFF 0xDABC) ∧
    ∀ i, decode (memRead (at_ 0xFFFF 0xDABC).pc (at_ 0xFFFF 0xDABC)).1 = .instr i → transfersControl i = false := by
  refine ⟨rfl, by decide, ?_⟩
  intro i h
  have hd : decode (memRead (at_ 0xFFFF 0xDABC).pc (at_ 0xFFFF 0xDABC)).1 = .instr .res := by decide
  rw [hd] at h
  cases h
  rfl

/-- FetchFromKbsrPollsAndDoesNothingElse, with a key and without one. -/
theorem witness_FetchFromKbsrPollsAndDoesNothingElse :
    let s : State := { State.reset with pc := 0xFE00 }
    (s.run = true ∧ s.hold = none ∧ s.pc = 0xFE00 ∧ s.kbq = []) ∧
    (withKeys [0x41] s).pc = 0xFE00 ∧ (withKeys [0x41] s).kbq ≠ [] := by decide

/-- NoBrIsTakenBeforeTheFirstFlagUpdate: reset, and each of the three codes. -/
theorem witness_NoBrIsTakenBeforeTheFirstFlagUpdate :
    State.reset.cond = 0 ∧ (withCond 0b001 State.reset).cond = 0b001 ∧ (withCond 0b010 State.reset).cond = 0b010 ∧
    (withCond 0b100 State.reset).cond = 0b100 := by decide

/-- JsrrLinksBeforeItReadsTheBase: a base for each clause. -/
theorem witness_JsrrLinksBeforeItReadsTheBase : Reg.r2 ≠ .r7 ∧ Reg.r7 = .r7 := by decide

/-- GetcTakesACharacterOrIsHeld and InPromptsReadsAndEchoes: a pending character, and none. -/
theorem witness_GetcTakesACharacterOrIsHeld_InPromptsReadsAndEchoes :
    (withKeys [0x78, 0x79] State.reset).kbq = 0x78 :: [0x79] ∧ (withKeys [0xFF] State.reset).kbq = 0xFF :: [] ∧
    State.reset.kbq = [] := by decide

/-- HeldReadWaitsForOneCharacter, in GETC and in IN: the states a step from V81 and V8G leaves, with nothing pending
and after the host has delivered one character and two. -/
theorem witness_HeldReadWaitsForOneCharacter :
    (nextOf (step (at_ 0x3000 0xF020))).map (fun t => (t.run, t.hold, t.kbq)) = some (true, some .getc, []) ∧
    (nextOf (step (at_ 0x3000 0xF023))).map (fun t => (t.run, t.hold, t.kbq)) = some (true, some .in_, []) ∧
    (nextOf (step (at_ 0x3000 0xF020))).map (fun t => ((t.deliver 0x78).hold, (t.deliver 0x78).kbq)) =
      some (some .getc, 0x78 :: []) ∧
    (nextOf (step (at_ 0x3000 0xF023))).map (fun t => (((t.deliver 0x78).deliver 0x79).hold,
      ((t.deliver 0x78).deliver 0x79).kbq)) = some (some .in_, 0x78 :: [0x79]) := by decide

/-- A held IN with two characters pending takes the first, echoes it and leaves the second (R122, R164). -/
theorem test_held_in_takes_the_first : after { State.reset with hold := some .in_, kbq := [0x78, 0x79] }
    (fun t => (t.reg .r0, t.con, t.kbq, t.hold, t.pc)) = some (0x0078, [0x0078], [0x79], none, 0x3000) := by decide

/-- The state of V8C, its string running from 0xFFFF to 0x0000. -/
def wrappingString : State := withReg .r0 0xFFFF (withCell 0xFFFF 0x41 (withCell 0 0x42 State.reset))

theorem wrappingString_meets :
    (∀ k w, ([0x41, 0x42] : List Word)[k]? = some w →
      w ≠ 0 ∧ Memory.read wrappingString.mem (((wrappingString.reg .r0).toNat + k) % 65536) = w) ∧
    Memory.read wrappingString.mem (((wrappingString.reg .r0).toNat + 2) % 65536) = 0 ∧
    (∀ k, k ≤ 2 → ((wrappingString.reg .r0).toNat + k) % 65536 ≠ 0xFE00) := by
  refine ⟨?_, by decide, by decide⟩
  intro k w h
  match k with
  | 0 => cases h; decide
  | 1 => cases h; decide
  | k + 2 => simp at h

/-- PutsWritesTheStringAndANewline and PutspWritesThePackedStringAndANewline, and the empty string at 0xFDFF. -/
theorem witness_PutsWritesTheStringAndANewline :
    (∃ (s : State) (ws : List Word), ws.length = 2 ∧
      (∀ k w, ws[k]? = some w → w ≠ 0 ∧ Memory.read s.mem (((s.reg .r0).toNat + k) % 65536) = w) ∧
      Memory.read s.mem (((s.reg .r0).toNat + ws.length) % 65536) = 0 ∧
      (∀ k, k ≤ ws.length → ((s.reg .r0).toNat + k) % 65536 ≠ 0xFE00)) ∧
    (Memory.read (withReg .r0 0xFDFF State.reset).mem 0xFDFF = 0 ∧
      ∀ k, k ≤ 0 → (((withReg .r0 0xFDFF State.reset).reg .r0).toNat + k) % 65536 ≠ 0xFE00) :=
  ⟨⟨wrappingString, [0x41, 0x42], rfl, wrappingString_meets.1, wrappingString_meets.2.1, wrappingString_meets.2.2⟩,
    by decide, by decide⟩

theorem witness_PutspWritesThePackedStringAndANewline :
    ∃ (s : State) (ws : List Word), ws ≠ [] ∧
      (∀ k w, ws[k]? = some w → w ≠ 0 ∧ Memory.read s.mem (((s.reg .r0).toNat + k) % 65536) = w) ∧
      Memory.read s.mem (((s.reg .r0).toNat + ws.length) % 65536) = 0 ∧
      (∀ k, k ≤ ws.length → ((s.reg .r0).toNat + k) % 65536 ≠ 0xFE00) :=
  ⟨wrappingString, [0x41, 0x42], by decide, wrappingString_meets.1, wrappingString_meets.2.1, wrappingString_meets.2.2⟩

/-- CanonicalMemoriesThatReadAlikeAreEqual: one memory, written in two orders. -/
theorem witness_CanonicalMemoriesThatReadAlikeAreEqual :
    let m := Memory.write (Memory.write [] 0xFFFF 1) 0 2
    let m' := Memory.write (Memory.write [] 0 2) 0xFFFF 1
    Memory.wf m = true ∧ Memory.wf m' = true ∧ ∀ a, Memory.read m a = Memory.read m' a := by
  refine ⟨by decide, by decide, fun a => ?_⟩
  rw [show Memory.write (Memory.write [] 0xFFFF 1) 0 2 = Memory.write (Memory.write [] 0 2) 0xFFFF 1 by decide]

/-- StoredWordIsTheNextInstruction: R0 holds HALT, and the store is fetched from 0x2FFF or from 0xFFFF. -/
theorem witness_StoredWordIsTheNextInstruction :
    let s := withReg .r0 0xF025 State.reset
    (s.run = true ∧ s.hold = none ∧ s.pc ≠ 0xFE00 ∧ decode (s.reg .r0) = .instr .halt) ∧
    ({ s with pc := 0xFFFF } : State).pc ≠ 0xFE00 := by decide

/-- SextCopiesTheSignBit: the ends of the range of n. -/
theorem witness_SextCopiesTheSignBit : (1 ≤ 1 ∧ 1 ≤ 16) ∧ (1 ≤ 16 ∧ 16 ≤ 16) ∧
    sext (0x8000 : BitVec 16) = 0x8000 ∧ sext (1 : BitVec 1) = 0xFFFF := by decide

/-- SetCcGivesExactlyOneFlag: the boundary values of each clause. -/
theorem witness_SetCcGivesExactlyOneFlag : (0x0000 : Word) = 0 ∧ 0x8000 ≤ (0x8000 : Word).toNat ∧
    0x8000 ≤ (0xFFFF : Word).toNat ∧ (0x0001 ≤ (0x0001 : Word).toNat ∧ (0x0001 : Word).toNat ≤ 0x7FFF) ∧
    (0x0001 ≤ (0x7FFF : Word).toNat ∧ (0x7FFF : Word).toNat ≤ 0x7FFF) := by decide

/-- OnlySevenInstructionsUpdateTheFlags and OnlyTheTabledRegistersAreWritten: an instruction for each clause. -/
theorem witness_OnlySevenInstructionsUpdateTheFlags :
    (∃ t, exec (.lea .r1 9) State.reset = .next t ∧ flagSource (.lea .r1 9) = some .r1) ∧
    (∃ t, exec (.jsr 0) State.reset = .next t ∧ flagSource (.jsr 0) = none) :=
  ⟨⟨_, rfl, rfl⟩, ⟨_, rfl, rfl⟩⟩

theorem witness_OnlyTheTabledRegistersAreWritten : ∃ t, exec .getc (withKeys [0x31] State.reset) = .next t :=
  ⟨_, rfl⟩

/-- OnlyStoresChangeOrdinaryMemory: an instruction for each clause, and an address. -/
theorem witness_OnlyStoresChangeOrdinaryMemory :
    (∃ t, exec .halt State.reset = .next t ∧ memoryUse .halt = .none) ∧
    (∃ t, exec (.ldr .r0 .r1 0) (withReg .r1 0xFE00 State.reset) = .next t ∧ memoryUse (.ldr .r0 .r1 0) = .reads) ∧
    (0xFE01 : Nat) ≠ 0xFE00 ∧ (0xFE01 : Nat) ≠ 0xFE02 :=
  ⟨⟨_, rfl, rfl⟩, ⟨_, rfl, rfl⟩, by decide, by decide⟩

/-- ConsoleOnlyGrowsAndKeysAreTakenInOrder and EveryStepKeepsTheInvariant: the first step from reset. -/
theorem witness_ConsoleOnlyGrowsAndKeysAreTakenInOrder : ∃ t, step State.reset = .next t :=
  ⟨_, next_of_nextOf (show nextOf (step State.reset) = some { State.reset with pc := 0x3001 } by decide)⟩

theorem witness_EveryStepKeepsTheInvariant : State.reset.Inv ∧ ∃ t, step State.reset = .next t :=
  ⟨⟨rfl, .inl rfl, by decide, by decide⟩, witness_ConsoleOnlyGrowsAndKeysAreTakenInOrder⟩

/-- ArrivalBehindPendingCharactersHasNoEffect: a GETC that leaves one character. -/
theorem witness_ArrivalBehindPendingCharactersHasNoEffect :
    (nextOf (step (withKeys [0x78, 0x79] (at_ 0x3000 0xF020)))).map State.kbq = some [0x79] ∧ [(0x79 : Byte)] ≠ [] := by
  decide

/-- ReachableStatesHaveTheInvariant: a state launched, stepped and delivered to. -/
theorem witness_ReachableStatesHaveTheInvariant : Reachable (({ State.reset with pc := 0x3001 } : State).deliver 0x41) :=
  .delivered 0x41 (.stepped (.launched (images := [[0x30, 0x00]]) (start := 0x3000) (keys := []) (s := State.reset) (by decide))
    (next_of_nextOf (show nextOf (step State.reset) = some { State.reset with pc := 0x3001 } by decide)))

/-- BootPlacesTheImageBigEndian: no word (VL1), and one word at the top of memory (VL8). -/
theorem witness_BootPlacesTheImageBigEndian :
    (2 ≤ [0x30, 0x00].length ∧ [0x30, 0x00].length % 2 = 0 ∧ 0x3000 + (2 / 2 - 1) ≤ 65536) ∧
    (2 ≤ ([0xFF, 0xFF, 0x00, 0x01] : Image).length ∧ ([0xFF, 0xFF, 0x00, 0x01] : Image).length % 2 = 0 ∧
      ((([0xFF, 0xFF, 0x00, 0x01] : Image).getD 0 0).toNat * 256 + (([0xFF, 0xFF, 0x00, 0x01] : Image).getD 1 0).toNat) +
        (([0xFF, 0xFF, 0x00, 0x01] : Image).length / 2 - 1) ≤ 65536) := by decide

/-- MalformedImageIsNotLaunched: each way to be malformed. -/
theorem witness_MalformedImageIsNotLaunched :
    ([] : Image).length < 2 ∧ ([0x30] : Image).length < 2 ∧ ([0x30, 0x00, 0x12] : Image).length % 2 = 1 := by decide

/-- ImagePastTheTopIsRefused: one word too many (VL7). -/
theorem witness_ImagePastTheTopIsRefused :
    let b : Image := [0xFF, 0xFF, 0x00, 0x01, 0x00, 0x02]
    2 ≤ b.length ∧ b.length % 2 = 0 ∧ 65536 < ((b.getD 0 0).toNat * 256 + (b.getD 1 0).toNat) + (b.length / 2 - 1) := by decide

/-- BootAppliesImagesInOrder: an earlier boot that is ready, and a later image over it that ends at the top of memory
(VL8), and one without a word (VL1). -/
theorem witness_BootAppliesImagesInOrder :
    let b : Image := [0xFF, 0xFF, 0x00, 0x01]
    let e : Image := [0x30, 0x00]
    boot [[0x30, 0x00, 0x12, 0x34]] 0x3000 [] = .ready { State.reset with mem := [(0x3000, 0x1234)] } ∧
    (2 ≤ b.length ∧ b.length % 2 = 0 ∧
      ((b.getD 0 0).toNat * 256 + (b.getD 1 0).toNat) + (b.length / 2 - 1) ≤ 65536) ∧
    (2 ≤ e.length ∧ e.length % 2 = 0 ∧
      ((e.getD 0 0).toNat * 256 + (e.getD 1 0).toNat) + (e.length / 2 - 1) ≤ 65536) := by decide

/-- OneBadImageGivesNoLaunch: each way to be bad, after an image that loads and before one. -/
theorem witness_OneBadImageGivesNoLaunch :
    let past : Image := [0xFF, 0xFF, 0x00, 0x01, 0x00, 0x02]
    (([0x30] : Image).length < 2 ∧ ([0x30, 0x00, 0x12] : Image).length % 2 = 1 ∧
      65536 < ((past.getD 0 0).toNat * 256 + (past.getD 1 0).toNat) + (past.length / 2 - 1)) ∧
    boot [[0x30, 0x00]] 0x3000 [] = .ready State.reset ∧
    boot [[0x30, 0x00], past, [0x30]] 0x3000 [] = .failed .pastTop := by decide

end Sys2Proof.Tests
end

section
/-! SUPPORT. What one instruction can do, said once: it performs a sequence of the shared operations, each of which
the tables of Safety.lean allow it. Every rule about all instructions is then an induction over that sequence. -/

namespace Sys2Proof.Proofs

open Sys2Proof.Machine Sys2Proof.Laws

/-! ### The character read of GETC and IN (R122) -/

/-- A character read writes R0, the queue, the console and the hold at most. -/
theorem readCharThen_frame (h : HeldRead) (s : State) :
    KeepsRegs [.r0] s (readCharThen h s) ∧ (readCharThen h s).pc = s.pc ∧ (readCharThen h s).cond = s.cond ∧
    (readCharThen h s).run = s.run ∧ (readCharThen h s).stop = s.stop ∧ (readCharThen h s).mem = s.mem := by
  cases hk : s.kbq with
  | nil =>
    rw [readCharThen_empty hk]
    exact ⟨fun _ _ => rfl, rfl, rfl, rfl, rfl, rfl⟩
  | cons c rest =>
    rw [readCharThen_pending hk]
    have other (u : State) (q : Reg) (hq : q ∉ [Reg.r0]) : (u.setReg .r0 (zext c)).reg q = u.reg q :=
      setReg_reg_other u _ (by simpa using hq)
    cases h with
    | getc => exact ⟨other _, rfl, rfl, rfl, rfl, rfl⟩
    | in_ => exact ⟨other _, rfl, rfl, rfl, rfl, rfl⟩

theorem readCharThen_keepsRegs (h : HeldRead) (s : State) : KeepsRegs [.r0] s (readCharThen h s) :=
  (readCharThen_frame h s).1
@[simp] theorem readCharThen_pc (h : HeldRead) (s : State) : (readCharThen h s).pc = s.pc :=
  (readCharThen_frame h s).2.1
@[simp] theorem readCharThen_cond (h : HeldRead) (s : State) : (readCharThen h s).cond = s.cond :=
  (readCharThen_frame h s).2.2.1
@[simp] theorem readCharThen_run (h : HeldRead) (s : State) : (readCharThen h s).run = s.run :=
  (readCharThen_frame h s).2.2.2.1
@[simp] theorem readCharThen_stop (h : HeldRead) (s : State) : (readCharThen h s).stop = s.stop :=
  (readCharThen_frame h s).2.2.2.2.1
@[simp] theorem readCharThen_mem (h : HeldRead) (s : State) : (readCharThen h s).mem = s.mem :=
  (readCharThen_frame h s).2.2.2.2.2

/-- A character read only adds to the console: the echo of IN. -/
theorem readCharThen_con_grows (h : HeldRead) (s : State) : s.con <+: (readCharThen h s).con := by
  cases hk : s.kbq with
  | nil => rw [readCharThen_empty hk]
  | cons c rest =>
    rw [readCharThen_pending hk]
    cases h with
    | getc => exact ⟨[], List.append_nil _⟩
    | in_ => exact ⟨[zext c], rfl⟩

/-- A character read leaves the queue without its first character. -/
theorem readCharThen_kbq (h : HeldRead) (s : State) : (readCharThen h s).kbq = s.kbq.tail := by
  cases hk : s.kbq with
  | nil => rw [readCharThen_empty hk]; exact hk
  | cons c rest => rw [readCharThen_pending hk]; cases h <;> rfl

theorem readCharThen_kbq_suffix (h : HeldRead) (s : State) : (readCharThen h s).kbq <:+ s.kbq :=
  readCharThen_kbq h s ▸ List.tail_suffix s.kbq

theorem memRead_kbq_suffix (a : Word) (s : State) : (memRead a s).2.kbq <:+ s.kbq :=
  (memRead_kbq_front a s).imp fun _ h => h.symm

/-! ### The operations an instruction performs -/

/-- `Performs i s t`: the shared operations lead from `s` to `t`, each one allowed to `i` by its tables. -/
inductive Performs (i : Instr) (s : State) : State → Prop where
  | start : Performs i s s
  | writesReg {t : State} (r : Reg) (v : Word) :
      r ∈ writtenRegs i → Performs i s t → Performs i s (t.setReg r v)
  | movesPc {t : State} (target : Word) :
      transfersControl i = true → Performs i s t → Performs i s (t.setPc target)
  | setsFlags {t : State} (v : Word) :
      flagSource i ≠ none → Performs i s t → Performs i s (setCC v t)
  | reads {t : State} (a : Word) :
      memoryUse i ≠ .none → Performs i s t → Performs i s (memRead a t).2
  | stores {t : State} (a v : Word) :
      memoryUse i = .stores → Performs i s t → Performs i s (memWrite a v t)
  | prints {t : State} (cs : List Word) :
      Performs i s t → Performs i s (consoleWriteAll cs t)
  | readsChar {t : State} (h : HeldRead) :
      i = .getc ∨ i = .in_ → Performs i s t → Performs i s (readCharThen h t)
  | halts {t : State} :
      i = .halt → Performs i s t → Performs i s (stopWith .haltTrap t)

/-- The result write of the seven flag-updating instructions, as two operations. -/
theorem Performs.writesResult {i : Instr} {s t : State} {dr : Reg} (v : Word) (hr : dr ∈ writtenRegs i)
    (hf : flagSource i ≠ none) (h : Performs i s t) : Performs i s (writeResult dr v t) :=
  .setsFlags v hf (.writesReg dr v hr h)

/-- The end of LD, LDI and LDR. -/
theorem Performs.loads {i : Instr} {s t : State} {dr : Reg} (ea : Word) (hr : dr ∈ writtenRegs i)
    (hf : flagSource i ≠ none) (hm : memoryUse i ≠ .none) (h : Performs i s t) :
    Performs i s (loadFrom dr ea t) :=
  .writesResult _ hr hf (.reads ea hm h)

/-- A string walk performs a read for each word, and prints those that are not zero. -/
theorem Performs.walks {i : Instr} {s t u : State} {chars : Word → List Word} {n : Nat} {a : Word}
    (hm : memoryUse i ≠ .none) (h : Performs i s t) (hw : stringWalk chars n a t = some u) : Performs i s u := by
  induction n generalizing a t with
  | zero => simp [stringWalk_zero] at hw
  | succ n ih =>
    rw [stringWalk_succ] at hw
    split at hw
    · cases hw; exact .reads a hm h
    · exact ih (.prints _ (.reads a hm h)) hw

/-- PUTS and PUTSP always answer a next state, which the walk and the newline lead to. -/
theorem writeString_performs {i : Instr} (chars : Word → List Word) (hm : memoryUse i ≠ .none) (s : State) :
    ∃ t, writeString chars s = .next t ∧ Performs i s t := by
  obtain ⟨t, hwalk, hnext⟩ := writeString_next chars s
  exact ⟨_, hnext, .prints [newline] (.walks hm .start hwalk)⟩

/-- Every instruction answers a next state, and only operations its tables allow lead to it. -/
theorem exec_performs (i : Instr) (s : State) : ∃ t, exec i s = .next t ∧ Performs i s t := by
  cases i with
  | br nzp off =>
    refine ⟨_, rfl, ?_⟩
    split
    · exact .movesPc _ rfl .start
    · exact .start
  | addReg dr sr1 sr2 => exact ⟨_, rfl, .writesResult _ (by simp [writtenRegs]) nofun .start⟩
  | addImm dr sr1 imm => exact ⟨_, rfl, .writesResult _ (by simp [writtenRegs]) nofun .start⟩
  | ld dr off => exact ⟨_, rfl, .loads _ (by simp [writtenRegs]) nofun nofun .start⟩
  | st sr off => exact ⟨_, rfl, .stores _ _ rfl .start⟩
  | jsr off => exact ⟨_, rfl, .movesPc _ rfl (.writesReg _ _ (by simp [writtenRegs]) .start)⟩
  | jsrr base => exact ⟨_, rfl, .movesPc _ rfl (.writesReg _ _ (by simp [writtenRegs]) .start)⟩
  | andReg dr sr1 sr2 => exact ⟨_, rfl, .writesResult _ (by simp [writtenRegs]) nofun .start⟩
  | andImm dr sr1 imm => exact ⟨_, rfl, .writesResult _ (by simp [writtenRegs]) nofun .start⟩
  | ldr dr base off => exact ⟨_, rfl, .loads _ (by simp [writtenRegs]) nofun nofun .start⟩
  | str sr base off => exact ⟨_, rfl, .stores _ _ rfl .start⟩
  | rti => exact ⟨_, rfl, .start⟩
  | not dr sr1 => exact ⟨_, rfl, .writesResult _ (by simp [writtenRegs]) nofun .start⟩
  | ldi dr off => exact ⟨_, rfl, .loads _ (by simp [writtenRegs]) nofun nofun (.reads _ nofun .start)⟩
  | sti sr off => exact ⟨_, rfl, .stores _ _ rfl (.reads _ nofun .start)⟩
  | jmp base => exact ⟨_, rfl, .movesPc _ rfl .start⟩
  | res => exact ⟨_, rfl, .start⟩
  | lea dr off => exact ⟨_, rfl, .writesResult _ (by simp [writtenRegs]) nofun .start⟩
  | getc => exact ⟨_, rfl, .readsChar _ (.inl rfl) .start⟩
  | out => exact ⟨_, rfl, .prints [_] .start⟩
  | puts => exact writeString_performs (i := .puts) putsChars nofun s
  | in_ => exact ⟨_, rfl, .readsChar _ (.inr rfl) (.prints prompt .start)⟩
  | putsp => exact writeString_performs (i := .putsp) putspChars nofun s
  | halt => exact ⟨_, rfl, .halts rfl (.prints haltLine .start)⟩

theorem exec_next (i : Instr) (s : State) : ∃ t, exec i s = .next t :=
  (exec_performs i s).imp fun _ h => h.1

theorem performs_of_exec {i : Instr} {s t : State} (h : exec i s = .next t) : Performs i s t := by
  obtain ⟨u, hu, hp⟩ := exec_performs i s
  cases hu.symm.trans h
  exact hp

/-! ### What every sequence of operations keeps -/

variable {i : Instr} {s t : State}

/-- Only the registers of the table of R21 are written. -/
theorem Performs.keepsRegs (h : Performs i s t) : KeepsRegs (writtenRegs i) s t := by
  intro q hq
  induction h with
  | start => rfl
  | writesReg r v hr _ ih => exact (setReg_reg_other _ v (ne_of_mem_of_not_mem hr hq).symm).trans ih
  | reads a _ _ ih => exact (memRead_reg a _ q).trans ih
  | readsChar h hi _ ih =>
    have hw : writtenRegs i = [.r0] := by rcases hi with rfl | rfl <;> rfl
    exact (readCharThen_keepsRegs h _ q (hw ▸ hq)).trans ih
  | movesPc _ _ _ ih | setsFlags _ _ _ ih | stores _ _ _ _ ih | prints _ _ ih | halts _ _ ih => exact ih

/-- Only a control instruction moves the PC beyond the increment (R23). -/
theorem Performs.pc (h : Performs i s t) (hi : transfersControl i = false) : t.pc = s.pc := by
  induction h with
  | start => rfl
  | movesPc _ hc _ _ => simp [hi] at hc
  | reads _ _ _ ih | readsChar _ _ _ ih => simpa using ih
  | writesReg _ _ _ _ ih | setsFlags _ _ _ ih | stores _ _ _ _ ih | prints _ _ ih | halts _ _ ih => exact ih

/-- Only HALT touches RUN and STOP (R26). -/
theorem Performs.run_stop (h : Performs i s t) (hi : i ≠ .halt) : t.run = s.run ∧ t.stop = s.stop := by
  induction h with
  | start => exact ⟨rfl, rfl⟩
  | halts hh _ _ => exact absurd hh hi
  | reads _ _ _ ih | readsChar _ _ _ ih => simpa using ih
  | writesReg _ _ _ _ ih | movesPc _ _ _ ih | setsFlags _ _ _ ih | stores _ _ _ _ ih | prints _ _ ih => exact ih

/-- The canonical form of memory is kept (log entry 1). -/
theorem Performs.wf (h : Performs i s t) (hm : Memory.wf s.mem = true) : Memory.wf t.mem = true := by
  induction h with
  | start => exact hm
  | reads _ _ _ ih => exact memRead_wf ih
  | stores _ _ _ _ ih => exact memWrite_wf ih
  | readsChar _ _ _ ih => simpa using ih
  | writesReg _ _ _ _ ih | movesPc _ _ _ ih | setsFlags _ _ _ ih | prints _ _ ih | halts _ _ ih => exact ih

theorem condLegal_condOf (v : Word) : CondLegal (condOf v) := .inr (condOf_cases v)

/-- COND stays legal (R25). -/
theorem Performs.condLegal (h : Performs i s t) (hc : CondLegal s.cond) : CondLegal t.cond := by
  induction h with
  | start => exact hc
  | setsFlags v _ _ _ => exact condLegal_condOf v
  | reads _ _ _ ih | readsChar _ _ _ ih => simpa using ih
  | writesReg _ _ _ _ ih | movesPc _ _ _ ih | stores _ _ _ _ ih | prints _ _ ih | halts _ _ ih => exact ih

/-- The console only grows (R192). -/
theorem Performs.con_grows (h : Performs i s t) : s.con <+: t.con := by
  induction h with
  | start => exact ⟨[], List.append_nil _⟩
  | prints cs _ ih => exact ih.trans ⟨cs, rfl⟩
  | reads _ _ _ ih => simpa using ih
  | readsChar h _ _ ih => exact ih.trans (readCharThen_con_grows h _)
  | writesReg _ _ _ _ ih | movesPc _ _ _ ih | setsFlags _ _ _ ih | stores _ _ _ _ ih | halts _ _ ih => exact ih

/-- Characters are taken from the front of the keyboard queue only (R31). -/
theorem Performs.kbq_suffix (h : Performs i s t) : t.kbq <:+ s.kbq := by
  induction h with
  | start => exact List.suffix_rfl
  | reads a _ _ ih => exact (memRead_kbq_suffix a _).trans ih
  | readsChar h _ _ ih => exact (readCharThen_kbq_suffix h _).trans ih
  | writesReg _ _ _ _ ih | movesPc _ _ _ ih | setsFlags _ _ _ ih | stores _ _ _ _ ih | prints _ _ ih
  | halts _ _ ih => exact ih

end Sys2Proof.Proofs
end

section
/-! SUPPORT. What one step can do, said once. -/

namespace Sys2Proof.Proofs

open Sys2Proof.Machine Sys2Proof.Laws

variable {s t : State}

/-! ### One equation for each way a step can go (R110 to R114, R122, R182) -/

theorem step_halted (hr : s.run = false) : step s = .fault .halted := by simp [step, hr]

theorem step_held {h : HeldRead} (hr : s.run = true) (hh : s.hold = some h) : step s = resumeRead h s := by
  simp [step, hr, hh]

theorem step_instr {i : Instr} (hr : s.run = true) (hh : s.hold = none) (hd : decode (memRead s.pc s).1 = .instr i) :
    step s = exec i (fetch s).2 := by
  simp [step, hr, hh, fetch_word, hd]

theorem step_reject {r : Reject} (hr : s.run = true) (hh : s.hold = none)
    (hd : decode (memRead s.pc s).1 = .reject r) :
    step s = .next (raiseDecodeError (memRead s.pc s).1 (fetch s).2) := by
  simp [step, hr, hh, fetch_word, hd]

theorem resumeRead_empty (h : HeldRead) (hk : s.kbq = []) : resumeRead h s = .fault .held := by
  simp [resumeRead, hk]

theorem resumeRead_pending (h : HeldRead) (hk : s.kbq ≠ []) : resumeRead h s = .next (readCharThen h s) := by
  obtain ⟨c, rest, hc⟩ := List.exists_cons_of_ne_nil hk
  simp [resumeRead, hc]

/-! ### When there is a step, and what it is -/

/-- A running core has a step, unless it is held with no character pending. -/
theorem step_defined (hr : s.run = true) (hk : s.hold = none ∨ s.kbq ≠ []) : ∃ t, step s = .next t := by
  cases hh : s.hold with
  | some h =>
    have hk : s.kbq ≠ [] := hk.resolve_left (by simp [hh])
    exact ⟨_, (step_held hr hh).trans (resumeRead_pending h hk)⟩
  | none =>
    cases hd : decode (memRead s.pc s).1 with
    | instr i => rw [step_instr hr hh hd]; exact exec_next i _
    | reject r => exact ⟨_, step_reject hr hh hd⟩

/-- The three ways a step answers a next state. -/
inductive StepCase (s t : State) : Prop where
  /-- A held read takes a character (R122). -/
  | resumed (h : HeldRead) : s.hold = some h → s.kbq ≠ [] → t = readCharThen h s → StepCase s t
  /-- The fetched word is an instruction, which runs on the incremented PC (R114). -/
  | ran (i : Instr) : s.hold = none → decode (memRead s.pc s).1 = .instr i → exec i (fetch s).2 = .next t →
      StepCase s t
  /-- The fetched word is none: the decode error (R182). -/
  | rejected (r : Reject) : s.hold = none → decode (memRead s.pc s).1 = .reject r →
      t = raiseDecodeError (memRead s.pc s).1 (fetch s).2 → StepCase s t

theorem run_of_step (h : step s = .next t) : s.run = true := by
  by_contra hr
  simp [step_halted (Bool.eq_false_iff.mpr hr)] at h

theorem stepCase_of_step (h : step s = .next t) : StepCase s t := by
  have hr := run_of_step h
  cases hh : s.hold with
  | some held =>
    rw [step_held hr hh] at h
    by_cases hk : s.kbq = []
    · simp [resumeRead_empty held hk] at h
    · rw [resumeRead_pending held hk] at h
      exact .resumed held hh hk (by cases h; rfl)
  | none =>
    cases hd : decode (memRead s.pc s).1 with
    | instr i => exact .ran i hh hd (step_instr hr hh hd ▸ h)
    | reject r =>
      rw [step_reject hr hh hd] at h
      exact .rejected r hh hd (by cases h; rfl)

/-! ### The console and the keyboard queue over one step (R31, R192, R193) -/

theorem fetch_kbq_suffix (s : State) : (fetch s).2.kbq <:+ s.kbq := by
  rw [fetch_state]; exact memRead_kbq_suffix s.pc s

theorem fetch_con (s : State) : (fetch s).2.con = s.con := by simp [fetch_state]

theorem step_con_grows (h : step s = .next t) : s.con <+: t.con := by
  cases stepCase_of_step h with
  | resumed held _ _ ht => rw [ht]; exact readCharThen_con_grows held s
  | ran i _ _ he => exact fetch_con s ▸ (performs_of_exec he).con_grows
  | rejected r _ _ ht => rw [ht, raiseDecodeError, stopWith_con, fetch_con]

theorem step_kbq_suffix (h : step s = .next t) : t.kbq <:+ s.kbq := by
  cases stepCase_of_step h with
  | resumed held _ _ ht => rw [ht]; exact readCharThen_kbq_suffix held s
  | ran i _ _ he => exact (performs_of_exec he).kbq_suffix.trans (fetch_kbq_suffix s)
  | rejected r _ _ ht => rw [ht]; exact fetch_kbq_suffix s

/-! ### The invariant over one step -/

theorem fetch_inv (h : s.Inv) : (fetch s).2.Inv := by
  rw [fetch_state]
  exact ⟨memRead_wf h.memory, by simpa using h.cond, by simpa using h.run, by simpa using h.hold⟩

/-- Stopping a core that is not held, with a reason, keeps the invariant. -/
theorem stopWith_inv {why : StopReason} (h : s.Inv) (hh : s.hold = none) (hw : why ≠ .none) :
    (stopWith why s).Inv :=
  ⟨h.memory, h.cond, by simp [hw], by simp [hh]⟩

/-- A running core that is not held has the invariant after any instruction. -/
theorem exec_inv {i : Instr} (h : s.Inv) (hr : s.run = true) (hh : s.hold = none) (he : exec i s = .next t) :
    t.Inv := by
  by_cases hi : i = .halt
  · subst hi
    cases he
    exact stopWith_inv (s := consoleWriteAll haltLine s) ⟨h.memory, h.cond, h.run, h.hold⟩ hh nofun
  · have hp := performs_of_exec he
    obtain ⟨hrun, hstop⟩ := hp.run_stop hi
    exact ⟨hp.wf h.memory, hp.condLegal h.cond, by rw [hrun, hstop]; exact h.run, fun _ => hrun.trans hr⟩

theorem readCharThen_inv (held : HeldRead) (h : s.Inv) (hr : s.run = true) : (readCharThen held s).Inv :=
  ⟨by simpa using h.memory, by simpa using h.cond, by simpa using h.run, fun _ => by simpa using hr⟩

theorem step_inv (hs : s.Inv) (h : step s = .next t) : t.Inv := by
  have hrun := run_of_step h
  have hf : (fetch s).2.Inv := fetch_inv hs
  have hfhold : (fetch s).2.hold = s.hold := by simp [fetch_state]
  cases stepCase_of_step h with
  | resumed held _ _ ht => exact ht ▸ readCharThen_inv held hs hrun
  | ran i hh _ he => exact exec_inv hf (by simpa [fetch_state] using hrun) (hfhold.trans hh) he
  | rejected r hh _ ht => exact ht ▸ stopWith_inv hf (hfhold.trans hh) nofun

end Sys2Proof.Proofs
end

section
/-! SUPPORT. The core does not see what stands on the console already, nor the characters behind those it leaves
pending: one argument for both. The two sets of characters are put around what a state has, and every operation
goes the same way with them as without. -/

namespace Sys2Proof.Proofs

open Sys2Proof.Machine Sys2Proof.Laws

/-- The state with output before all that is on the console, and characters behind all that are pending. -/
def widen (earlier : List Word) (later : List Byte) (s : State) : State :=
  { s with con := earlier ++ s.con, kbq := s.kbq ++ later }

theorem withEarlierOutput_eq_widen (earlier : List Word) (s : State) :
    s.withEarlierOutput earlier = widen earlier [] s := by
  simp [widen, State.withEarlierOutput]

theorem deliver_eq_widen (c : Byte) (s : State) : s.deliver c = widen [] [c] s := rfl

/-- The later characters are out of sight: there are none, or one stands before them. -/
def OutOfSight (later : List Byte) (s : State) : Prop := later = [] ∨ s.kbq ≠ []

variable {earlier : List Word} {later : List Byte} {s t : State}

/-- What is out of sight at the end of some reads was so before them. -/
theorem OutOfSight.before (h : OutOfSight later t) (hk : t.kbq <:+ s.kbq) : OutOfSight later s :=
  h.imp_right fun ht hs => ht (List.suffix_nil.mp (hs ▸ hk))

@[simp] theorem widen_regs : (widen earlier later s).regs = s.regs := rfl
@[simp] theorem widen_pc : (widen earlier later s).pc = s.pc := rfl
@[simp] theorem widen_run : (widen earlier later s).run = s.run := rfl
@[simp] theorem widen_kbq : (widen earlier later s).kbq = s.kbq ++ later := rfl
@[simp] theorem widen_hold : (widen earlier later s).hold = s.hold := rfl
@[simp] theorem widen_reg (r : Reg) : (widen earlier later s).reg r = s.reg r := rfl

theorem consoleWriteAll_widen (cs : List Word) :
    consoleWriteAll cs (widen earlier later s) = widen earlier later (consoleWriteAll cs s) := by
  simp [consoleWriteAll, widen]

/-- A poll takes the same character (R53). -/
theorem keyboardPoll_widen (h : OutOfSight later s) :
    keyboardPoll (widen earlier later s) = widen earlier later (keyboardPoll s) := by
  cases hk : s.kbq with
  | nil =>
    have hl : later = [] := h.resolve_right (· hk)
    rw [keyboardPoll_empty hk, keyboardPoll_empty (by simp [hk, hl])]
    rfl
  | cons c rest =>
    rw [keyboardPoll_pending hk, keyboardPoll_pending (c := c) (rest := rest ++ later) (by simp [hk])]
    rfl

theorem memRead_widen (a : Word) (h : OutOfSight later s) :
    memRead a (widen earlier later s) = ((memRead a s).1, widen earlier later (memRead a s).2) := by
  by_cases ha : a = 0xFE00
  · subst ha
    rw [memRead_kbsr, keyboardPoll_widen h]
    rfl
  · rw [memRead_plain _ ha, memRead_plain _ ha]
    rfl

theorem fetch_widen (h : OutOfSight later s) :
    (fetch (widen earlier later s)).2 = widen earlier later (fetch s).2 := by
  rw [fetch_state, fetch_state, widen_pc, memRead_widen _ h]
  rfl

theorem finishRead_widen (held : HeldRead) (c : Byte) :
    finishRead held c (widen earlier later s) = widen earlier later (finishRead held c s) := by
  cases held with
  | getc => rfl
  | in_ => exact consoleWriteAll_widen (s := s.setReg .r0 (zext c)) [zext c]

theorem readCharThen_widen (held : HeldRead) (h : OutOfSight later s) :
    readCharThen held (widen earlier later s) = widen earlier later (readCharThen held s) := by
  cases hk : s.kbq with
  | nil =>
    have hl : later = [] := h.resolve_right (· hk)
    rw [readCharThen_empty hk, readCharThen_empty (by simp [hk, hl])]
    rfl
  | cons c rest =>
    rw [readCharThen_pending hk, readCharThen_pending (c := c) (rest := rest ++ later) (by simp [hk])]
    exact finishRead_widen (s := { s with kbq := rest, hold := none }) held c

/-! ### The string walk -/

variable (chars : Word → List Word)

/-- A walk that ends, ends the same with more reads allowed. -/
theorem stringWalk_more_fuel {n m : Nat} {a : Word} (hnm : n ≤ m) (h : stringWalk chars n a s = some t) :
    stringWalk chars m a s = some t := by
  induction n generalizing m a s with
  | zero => simp [stringWalk_zero] at h
  | succ n ih =>
    obtain ⟨m, rfl⟩ : ∃ k, m = k + 1 := ⟨m - 1, by omega⟩
    rw [stringWalk_succ] at h ⊢
    by_cases hz : (memRead a s).1 = 0
    · rw [if_pos hz] at h ⊢
      exact h
    · rw [if_neg hz] at h ⊢
      exact ih (by omega) h

theorem stringWalk_kbq_suffix {n : Nat} {a : Word} (h : stringWalk chars n a s = some t) : t.kbq <:+ s.kbq :=
  (stringWalk_kbq_front chars h).imp fun _ hk => hk.symm

theorem stringWalk_widen {n : Nat} {a : Word} (h : stringWalk chars n a s = some t) (ht : OutOfSight later t) :
    stringWalk chars n a (widen earlier later s) = some (widen earlier later t) := by
  have hs : OutOfSight later s := ht.before (stringWalk_kbq_suffix chars h)
  induction n generalizing a s with
  | zero => simp [stringWalk_zero] at h
  | succ n ih =>
    rw [stringWalk_succ] at h ⊢
    rw [memRead_widen a hs]
    by_cases hz : (memRead a s).1 = 0
    · rw [if_pos hz] at h ⊢
      cases h; rfl
    · rw [if_neg hz] at h ⊢
      rw [consoleWriteAll_widen]
      exact ih h (ht.before (stringWalk_kbq_suffix chars h))

theorem writeString_widen (h : writeString chars s = .next t) (ht : OutOfSight later t) :
    writeString chars (widen earlier later s) = .next (widen earlier later t) := by
  obtain ⟨u, hwalk, hnext⟩ := writeString_next chars s
  cases hnext.symm.trans h
  have hfuel : walkFuel s ≤ walkFuel (widen earlier later s) := by simp [walkFuel]
  have hwide := stringWalk_more_fuel chars hfuel (stringWalk_widen (earlier := earlier) chars hwalk ht)
  simp only [writeString, widen_reg, hwide]
  exact congrArg _ (consoleWriteAll_widen [newline])

/-! ### Instructions and steps -/

theorem loadFrom_widen (dr : Reg) (ea : Word) (h : OutOfSight later s) :
    loadFrom dr ea (widen earlier later s) = widen earlier later (loadFrom dr ea s) := by
  rw [loadFrom, memRead_widen ea h]
  rfl

theorem indirect_widen (offset9 : BitVec 9) (h : OutOfSight later s) :
    indirect offset9 (widen earlier later s) =
      ((indirect offset9 s).1, widen earlier later (indirect offset9 s).2) :=
  memRead_widen _ h

theorem exec_widen {i : Instr} (h : exec i s = .next t) (ht : OutOfSight later t) :
    exec i (widen earlier later s) = .next (widen earlier later t) := by
  have hs : OutOfSight later s := ht.before (performs_of_exec h).kbq_suffix
  cases i with
  | br nzp off =>
    cases h
    show Host.Outcome.next (if branchTaken nzp s then _ else _) = _
    split <;> rfl
  | ld dr off => cases h; exact congrArg _ (loadFrom_widen dr _ hs)
  | ldr dr base off => cases h; exact congrArg _ (loadFrom_widen dr _ hs)
  | ldi dr off =>
    cases h
    have hp : OutOfSight later (indirect off s).2 := ht.before (memRead_kbq_suffix _ _)
    simp only [exec, execLdi, indirect_widen off hs, loadFrom_widen dr _ hp]
  | sti sr off =>
    cases h
    simp only [exec, execSti, indirect_widen off hs]
    rfl
  | getc => cases h; exact congrArg _ (readCharThen_widen .getc hs)
  | in_ =>
    cases h
    have hp : OutOfSight later (consoleWriteAll prompt s) := hs
    simp only [exec, execIn, consoleWriteAll_widen, readCharThen_widen .in_ hp]
  | out => cases h; exact congrArg _ (consoleWriteAll_widen [_])
  | puts => exact writeString_widen putsChars h ht
  | putsp => exact writeString_widen putspChars h ht
  | halt =>
    cases h
    simp only [exec, execHalt, consoleWriteAll_widen]
    rfl
  | addReg | addImm | st | jsr | jsrr | andReg | andImm | str | rti | not | jmp | res | lea => cases h; rfl

theorem step_widen (h : step s = .next t) (ht : OutOfSight later t) :
    step (widen earlier later s) = .next (widen earlier later t) := by
  have hs : OutOfSight later s := ht.before (step_kbq_suffix h)
  have hr : s.run = true := run_of_step h
  have hread : (memRead (widen earlier later s).pc (widen earlier later s)).1 = (memRead s.pc s).1 := by
    rw [widen_pc, memRead_widen _ hs]
  cases stepCase_of_step h with
  | resumed held hh hk he =>
    rw [step_held (s := widen earlier later s) hr hh, resumeRead_pending held (by simp [hk]),
      readCharThen_widen held hs, he]
  | ran i hh hd he =>
    rw [step_instr (s := widen earlier later s) hr hh (by rw [hread]; exact hd), fetch_widen hs]
    exact exec_widen he ht
  | rejected r hh hd he =>
    rw [step_reject (s := widen earlier later s) hr hh (by rw [hread]; exact hd), hread, fetch_widen hs, he]
    rfl

end Sys2Proof.Proofs
end

section
/-! SUPPORT. Canonical memories, and the invariant at boot and along a run. -/

namespace Sys2Proof.Proofs

open Sys2Proof.Machine Sys2Proof.Laws

/-! ### Canonical memories (log entry 1) -/

/-- An address below every listed one reads as zero. -/
theorem read_below {m : Memory} {a : Nat} (h : ∀ c ∈ m, a < c.1) : Memory.read m a = 0 := by
  induction m with
  | nil => rfl
  | cons c m ih =>
    obtain ⟨k, v⟩ := c
    rw [read_cons, if_neg (h (k, v) (by simp)).ne']
    exact ih fun c hc => h c (by simp [hc])

/-- The first listed address of a canonical memory reads as no zero. -/
theorem read_first_ne_zero {k : Nat} {v : Word} {m : Memory} (h : Memory.wf ((k, v) :: m) = true) :
    Memory.read ((k, v) :: m) k ≠ 0 := by
  rw [read_cons, if_pos rfl]
  exact (wf_cons.mp h).2.1

/-- Where two canonical memories read alike, neither lists an address before the first one of the other. -/
theorem first_le_of_read_alike {k k' : Nat} {v v' : Word} {m m' : Memory} (h : Memory.wf ((k, v) :: m) = true)
    (h' : Memory.wf ((k', v') :: m') = true)
    (hread : ∀ a, Memory.read ((k, v) :: m) a = Memory.read ((k', v') :: m') a) : k' ≤ k := by
  by_contra hlt
  have hlt : k < k' := by omega
  obtain ⟨-, -, habove, -⟩ := wf_cons.mp h'
  refine read_first_ne_zero h ((hread k).trans (read_below ?_))
  rintro c (_ | ⟨_, hc⟩)
  · exact hlt
  · exact hlt.trans (habove c hc)

theorem canonical_ext {m m' : Memory} (h : Memory.wf m = true) (h' : Memory.wf m' = true)
    (hread : ∀ a, Memory.read m a = Memory.read m' a) : m = m' := by
  induction m generalizing m' with
  | nil =>
    cases m' with
    | nil => rfl
    | cons c' m' => exact absurd (hread c'.1).symm (read_first_ne_zero h')
  | cons c m ih =>
    obtain ⟨k, v⟩ := c
    cases m' with
    | nil => exact absurd (hread k) (read_first_ne_zero h)
    | cons c' m' =>
      obtain ⟨k', v'⟩ := c'
      obtain rfl : k = k' :=
        le_antisymm (first_le_of_read_alike h' h fun a => (hread a).symm) (first_le_of_read_alike h h' hread)
      obtain rfl : v = v' := by simpa [read_cons] using hread k
      obtain ⟨-, -, habove, hm⟩ := wf_cons.mp h
      obtain ⟨-, -, habove', hm'⟩ := wf_cons.mp h'
      have htail (a : Nat) : Memory.read m a = Memory.read m' a := by
        by_cases ha : k = a
        · subst ha
          rw [read_below habove, read_below habove']
        · simpa [read_cons, ha] using hread a
      rw [ih hm hm' htail]

/-! ### Boot (R202, R205) -/

theorem loadImage_keeps_wf {b : Image} {m m' : Memory} (hm : Memory.wf m = true)
    (h : loadImage b m = .memory m') : Memory.wf m' = true := by
  by_cases hb : Image.wf b = true
  · rw [loadImage_wf m hb] at h
    cases h
    refine storeWords_wf _ _ _ ?_ hm
    have hinside : (Image.origin b).toNat + (b.length / 2 - 1) ≤ 65536 := by
      simp only [Image.wf, Image.insideMemory, Bool.and_eq_true, decide_eq_true_eq] at hb
      exact hb.2
    rw [bigEndianWords_length, List.length_drop]
    omega
  · simp [loadImage_not_wf m (Bool.eq_false_iff.mpr hb)] at h

theorem loadImages_keeps_wf {bs : List Image} {m m' : Memory} (hm : Memory.wf m = true)
    (h : loadImages bs m = .memory m') : Memory.wf m' = true := by
  induction bs generalizing m with
  | nil => cases h; exact hm
  | cons b bs ih =>
    rw [loadImages] at h
    cases hb : loadImage b m with
    | memory m1 =>
      rw [hb] at h
      exact ih (loadImage_keeps_wf hm hb) h
    | failed e => simp [hb] at h

/-! ### Reset, and the invariant along a run -/

/-- Every register of the zero register file reads as zero. -/
theorem zero_get (r : Reg) : RegFile.zero.get r = 0 := by cases r <;> rfl

/-- What launches has the invariant, whatever was loaded, wherever it starts and whatever was typed. -/
theorem launch_inv {m : Memory} (hm : Memory.wf m = true) (start : Word) (keys : List Byte) :
    State.Inv { State.constructed with mem := m, pc := start, run := true, kbq := keys } :=
  ⟨hm, .inl rfl, by simp [State.constructed], by simp⟩

theorem boot_inv {images : List Image} {start : Word} {keys : List Byte} {s : State}
    (h : boot images start keys = .ready s) : s.Inv := by
  obtain ⟨m, hm, rfl⟩ := boot_ready_iff.mp h
  exact launch_inv (loadImages_keeps_wf rfl hm) start keys

theorem reachable_inv {s : State} (h : Reachable s) : s.Inv := by
  induction h with
  | launched hb => exact boot_inv hb
  | stepped _ hstep ih => exact step_inv ih hstep
  | delivered c _ ih => exact ⟨ih.memory, ih.cond, ih.run, ih.hold⟩

/-- A state with the invariant that has no step is halted with a reason, or held. -/
theorem step_stops {s : State} (h : s.Inv) :
    (∃ t, step s = .next t) ∨ (step s = .fault .halted ∧ s.stop ≠ .none) ∨
      (step s = .fault .held ∧ s.hold ≠ none) := by
  cases hr : s.run with
  | false => exact .inr (.inl ⟨step_halted hr, fun hs => by simp [h.run.mpr hs] at hr⟩)
  | true =>
    cases hh : s.hold with
    | none => exact .inl (step_defined hr (.inl hh))
    | some held =>
      by_cases hk : s.kbq = []
      · exact .inr (.inr ⟨(step_held hr hh).trans (resumeRead_empty held hk), nofun⟩)
      · exact .inl (step_defined hr (.inr hk))

end Sys2Proof.Proofs
end

section
/-! The statements of the family 10_state.md. -/

namespace Sys2Proof.Proofs

open Sys2Proof.Machine Sys2Proof.Laws

/-- Settles O49: without a step the reason is the same, and a step is that of the wider state. -/
theorem earlierOutputHasNoEffect : Obligations.EarlierOutputHasNoEffect := by
  intro earlier s
  cases hr : s.run with
  | false => rw [step_halted hr, step_halted (s := s.withEarlierOutput earlier) hr]; rfl
  | true =>
    by_cases hheld : s.hold = none ∨ s.kbq ≠ []
    · obtain ⟨t, ht⟩ := step_defined hr hheld
      rw [withEarlierOutput_eq_widen, step_widen ht (.inl rfl), ht, mapNext, withEarlierOutput_eq_widen]
    · push Not at hheld
      obtain ⟨hhold, hk⟩ := hheld
      obtain ⟨held, hh⟩ := Option.ne_none_iff_exists'.mp hhold
      rw [step_held hr hh, step_held (s := s.withEarlierOutput earlier) hr hh, resumeRead_empty held hk,
        resumeRead_empty (s := s.withEarlierOutput earlier) held hk]
      rfl

/-- Settles O50: the arrival widens the state by one character that stays out of sight. -/
theorem arrivalBehindPendingCharactersHasNoEffect : Obligations.ArrivalBehindPendingCharactersHasNoEffect := by
  intro c s t h hk
  rw [deliver_eq_widen, deliver_eq_widen]
  exact step_widen h (.inr hk)

/-- Settles O51, by the three ways a step can go. -/
theorem everyStepKeepsTheInvariant : Obligations.EveryStepKeepsTheInvariant :=
  fun _ _ hs h => step_inv hs h

/-- Settles O10: the fetch has incremented the PC, and only a control instruction moves it again. -/
theorem onlyControlInstructionsWriteThePc : Obligations.OnlyControlInstructionsWriteThePc := by
  intro s t hh h hcontrol
  have hpc : (fetch s).2.pc = incrementPc s.pc := by rw [fetch_state, setPc_pc]
  cases stepCase_of_step h with
  | resumed held hheld _ _ => simp [hh] at hheld
  | ran i _ hd he => exact ((performs_of_exec he).pc (hcontrol i hd)).trans hpc
  | rejected r _ _ ht => exact ht ▸ hpc

/-- Settles O41, by induction on the two lists: their first cells agree, and so do their tails. -/
theorem canonicalMemoriesThatReadAlikeAreEqual : Obligations.CanonicalMemoriesThatReadAlikeAreEqual :=
  fun _ _ h h' hread => canonical_ext h h' hread

/-- Settles O46, by induction over the operations an instruction performs. -/
theorem onlyTheTabledRegistersAreWritten : Obligations.OnlyTheTabledRegistersAreWritten :=
  fun _ _ _ h => (performs_of_exec h).keepsRegs

/-- Settles O48, by induction over the operations of the step. -/
theorem consoleOnlyGrowsAndKeysAreTakenInOrder : Obligations.ConsoleOnlyGrowsAndKeysAreTakenInOrder := by
  intro s t h
  obtain ⟨written, hcon⟩ := step_con_grows h
  obtain ⟨taken, hkbq⟩ := step_kbq_suffix h
  exact ⟨⟨written, hcon.symm⟩, ⟨taken, hkbq.symm⟩⟩

/-- Settles O53, by induction over the run. -/
theorem reachableStatesHaveTheInvariant : Obligations.ReachableStatesHaveTheInvariant :=
  fun _ h => ⟨reachable_inv h, step_stops (reachable_inv h)⟩

/-- Settles O52: the state at reset is a launch state with nothing loaded and nothing typed. -/
theorem resetHasTheInvariant : Obligations.ResetHasTheInvariant :=
  launch_inv (m := []) rfl Config.startAddr []

/-- Settles O54: reset fills the register file with zeros and lists no memory cell. -/
theorem resetLeavesRegistersAndMemoryZero : Obligations.ResetLeavesRegistersAndMemoryZero :=
  ⟨zero_get, rfl, rfl, read_nil, rfl, rfl, rfl, rfl, zero_get, rfl, read_nil⟩

/-- Settles O55: an image of an origin alone stores no word. -/
theorem resetIsTheLaunchStateWithoutAnImage : Obligations.ResetIsTheLaunchStateWithoutAnImage :=
  ⟨rfl, rfl, rfl, rfl, rfl, rfl, rfl, boot_ready_iff.mpr ⟨[], loadImage_wf (b := [0x30, 0x00]) [] rfl, rfl⟩⟩

end Sys2Proof.Proofs
end

section
/-! SUPPORT. Memory as the statements speak of it: what a read leaves, the word KBSR supplies to a fetch, and the
words an instruction keeps. -/

namespace Sys2Proof.Proofs

open Sys2Proof.Machine Sys2Proof.Laws

/-! ### Reads (R52, R53) -/

theorem keyboardPoll_afterPoll (s : State) : AfterPoll s (keyboardPoll s) := by
  cases hk : s.kbq with
  | nil =>
    rw [AfterPoll, hk, keyboardPoll_empty hk]
    exact ⟨hk, fun a => memWrite_read 0xFE00 0 s a⟩
  | cons c rest =>
    rw [AfterPoll, hk, keyboardPoll_pending hk]
    refine ⟨rfl, fun a => ?_⟩
    rw [memWrite_read, memWrite_read, zext_eq_ofNat]
    by_cases ha : a = 0xFE00
    · subst ha; rfl
    · simp [ha]

theorem memRead_afterRead (a : Word) (s : State) : AfterRead s a (memRead a s).1 (memRead a s).2 := by
  refine ⟨memRead_value a s, ?_⟩
  split
  · next ha => subst ha; exact keyboardPoll_afterPoll s
  · next ha => rw [memRead_plain s ha]; exact ⟨fun _ => rfl, rfl⟩

theorem memRead_keepsRegs (a : Word) (s : State) : KeepsRegs [] s (memRead a s).2 := fun r _ => memRead_reg a s r

theorem memRead_keepsRun (a : Word) (s : State) : KeepsRun s (memRead a s).2 :=
  ⟨memRead_run a s, memRead_stop a s, memRead_hold a s⟩

/-! ### A fetch from KBSR (R57) -/

/-- BR with an empty mask is never taken (R140). -/
theorem exec_br_never (off : BitVec 9) (u : State) : exec (.br 0 off) u = .next u := by
  have hnever : branchTaken 0 u = false := by simp [branchTaken_eq]
  exact congrArg Host.Outcome.next (if_neg (Bool.eq_false_iff.mp hnever))

/-- Both words a poll can leave in KBSR are no-ops: 0x0000 is a BR with an empty mask, 0x8000 is RTI. -/
theorem decode_kbsr_noop (s : State) :
    ∃ i, decode (memRead 0xFE00 s).1 = .instr i ∧ ∀ u, exec i u = .next u := by
  rw [memRead_kbsr_value]
  split
  · exact ⟨.br 0 0, by decide, exec_br_never 0⟩
  · exact ⟨.rti, by decide, fun _ => rfl⟩

/-! ### A stored word as the next instruction (R64, R154) -/

/-- ST with offset 0 stores at PC†. -/
theorem exec_st_zero (sr : Reg) (s : State) : exec (.st sr 0) s = .next (memWrite s.pc (s.reg sr) s) := by
  have hea : pcRelative (0 : BitVec 9) s = s.pc := by simp [pcRelative, sext]
  exact congrArg (fun ea => Host.Outcome.next (memWrite ea (s.reg sr) s)) hea

/-- A fetch from any address but KBSR's leaves all but the PC as it was. -/
theorem fetch_state_plain {s : State} (h : s.pc ≠ 0xFE00) : (fetch s).2 = s.setPc (incrementPc s.pc) := by
  rw [fetch_state, memRead_plain s h]

/-! ### Words that no store reaches (R65) -/

/-- Without a store, a word of memory changes only if the instruction reads memory and the word is a keyboard cell. -/
theorem Performs.read {i : Instr} {s t : State} (h : Performs i s t) (hi : memoryUse i ≠ .stores) {a : Nat}
    (ha : memoryUse i = .none ∨ a ≠ 0xFE00 ∧ a ≠ 0xFE02) : Memory.read t.mem a = Memory.read s.mem a := by
  induction h with
  | start => rfl
  | stores _ _ hs _ _ => exact absurd hs hi
  | reads b hm _ ih =>
    obtain ⟨hkbsr, hkbdr⟩ := ha.resolve_left hm
    exact (memRead_read_other b _ hkbsr hkbdr).trans ih
  | readsChar _ _ _ ih => simpa using ih
  | writesReg _ _ _ _ ih | movesPc _ _ _ ih | setsFlags _ _ _ ih | prints _ _ ih | halts _ _ ih => exact ih

end Sys2Proof.Proofs
end

section
/-! The statements of the family 20_memory.md. -/

namespace Sys2Proof.Proofs

open Sys2Proof.Machine Sys2Proof.Laws

/-- Settles O11: the word fetched is one of two no-ops, so the step is the fetch. -/
theorem fetchFromKbsrPollsAndDoesNothingElse : Obligations.FetchFromKbsrPollsAndDoesNothingElse := by
  intro s hr hh hpc
  obtain ⟨i, hd, hnoop⟩ := decode_kbsr_noop s
  have hstep : step s = .next (fetch s).2 := (step_instr hr hh (hpc ▸ hd)).trans (hnoop _)
  have hinc : incrementPc 0xFE00 = 0xFE01 := by decide
  rw [fetch_state, hpc, hinc] at hstep
  exact ⟨_, hstep, keyboardPoll_afterPoll s, rfl, memRead_keepsRegs _ s,
    memRead_cond _ s, memRead_keepsRun _ s, memRead_con _ s⟩

/-- Settles O38, by whether the address is KBSR's and whether a character is pending. -/
theorem memReadReturnsTheWordAfterThePoll : Obligations.MemReadReturnsTheWordAfterThePoll :=
  fun a s => ⟨memRead_afterRead a s, memRead_keepsRegs a s, memRead_pc a s, memRead_cond a s,
    memRead_keepsRun a s, memRead_con a s⟩

/-- Settles O42: the store is at PC†, where the next step fetches. -/
theorem storedWordIsTheNextInstruction : Obligations.StoredWordIsTheNextInstruction := by
  intro s sr i hr hh hpc hd
  refine ⟨_, exec_st_zero sr s, ?_⟩
  generalize ht : memWrite s.pc (s.reg sr) s = t
  have htpc : t.pc = s.pc := by rw [← ht, memWrite_pc]
  have hplain : t.pc ≠ 0xFE00 := htpc ▸ hpc
  have hword : (memRead t.pc t).1 = s.reg sr := by
    rw [memRead_plain t hplain, htpc, ← ht, memWrite_cell, if_pos rfl]
  have hrun : t.run = true := by rw [← ht]; exact hr
  have hhold : t.hold = none := by rw [← ht]; exact hh
  rw [step_instr hrun hhold (hword ▸ hd), fetch_state_plain hplain, htpc]
  rfl

/-- Settles O47, by induction over the operations an instruction performs. -/
theorem onlyStoresChangeOrdinaryMemory : Obligations.OnlyStoresChangeOrdinaryMemory := by
  intro i s t h
  have hp := performs_of_exec h
  exact ⟨fun hm _ => hp.read (by simp [hm]) (.inl hm),
    fun hm _ hkbsr hkbdr => hp.read (by simp [hm]) (.inr ⟨hkbsr, hkbdr⟩)⟩

/-- Settles O39: a read after a write, for every pair of addresses. -/
theorem memWriteChangesTheOneWord : Obligations.MemWriteChangesTheOneWord :=
  fun a v s => ⟨memWrite_read a v s, fun _ _ => rfl, rfl, rfl, ⟨rfl, rfl, rfl⟩, ⟨rfl, rfl⟩⟩

/-- Settles O40: only a read of KBSR polls. -/
theorem kbdrReadIsPlain : Obligations.KbdrReadIsPlain :=
  fun s => memRead_plain s (by decide)

end Sys2Proof.Proofs
end

section
/-! SUPPORT. The encoder against the decoder: an encoded instruction reads back, a word read by its row encodes to the
word again but for the ignored bits, and which words have no row. -/

namespace Sys2Proof.Proofs

open Sys2Proof.Laws

/-! ### An encoded instruction, read back (R82, R90) -/

/-- An encoded instruction has the fixed bits of its own row (R88). -/
theorem encode_and_mask (i : Instr) : encode i &&& i.form.mask = i.form.pattern :=
  match i with
  | .br _ _ => OwnRow.br _ _
  | .addReg _ _ _ => OwnRow.addReg _ _ _
  | .addImm _ _ _ => OwnRow.addImm _ _ _
  | .ld _ _ => OwnRow.ld _ _
  | .st _ _ => OwnRow.st _ _
  | .jsr _ => OwnRow.jsr _
  | .jsrr _ => OwnRow.jsrr _
  | .andReg _ _ _ => OwnRow.andReg _ _ _
  | .andImm _ _ _ => OwnRow.andImm _ _ _
  | .ldr _ _ _ => OwnRow.ldr _ _ _
  | .str _ _ _ => OwnRow.str _ _ _
  | .rti => OwnRow.rti
  | .not _ _ => OwnRow.not _ _
  | .ldi _ _ => OwnRow.ldi _ _
  | .sti _ _ => OwnRow.sti _ _
  | .jmp _ => OwnRow.jmp _
  | .res => OwnRow.res
  | .lea _ _ => OwnRow.lea _ _
  | .getc => OwnRow.getc
  | .out => OwnRow.out
  | .puts => OwnRow.puts
  | .in_ => OwnRow.in_
  | .putsp => OwnRow.putsp
  | .halt => OwnRow.halt

/-- A field the table leaves zero reads from the encoding as from the operands alone. -/
theorem bitsAt_encode (i : Instr) (lo n : Nat)
    (h : bitsAt (i.form.pattern ||| i.form.canonicalIgnored) lo n = 0) :
    bitsAt (encode i) lo n = bitsAt i.operandBits lo n := by
  have hsplit : encode i = i.operandBits ||| (i.form.pattern ||| i.form.canonicalIgnored) := by
    rw [encode, BitVec.or_comm i.form.pattern, BitVec.or_assoc]
  rw [hsplit, bitsAt_or, h]
  exact BitVec.or_zero

/-- The fields read from an encoding are the instruction's own: the table's part is zero in each field, and no
operand is placed over another. -/
theorem build_encode (i : Instr) : Form.build (encode i) i.form = i := by
  cases i with
  | rti | res | getc | out | puts | in_ | putsp | halt => rfl
  | _ =>
    simp (disch := (simp only [Instr.form]; decide)) only [Form.build, Instr.form, regAt, bitsAt_encode]
    simp (disch := decide) [Instr.operandBits, bitsAt_or, bitsAt_placeAt_same, bitsAt_placeAt_apart]

/-! ### A word, encoded again (R82, R86) -/

/-- A field read and put back is the word's part there. -/
theorem placeAt_bitsAt (w : Word) (lo n : Nat) :
    placeAt (bitsAt w lo n) lo = w &&& placeAt (BitVec.allOnes n) lo := by
  apply BitVec.eq_of_getLsbD_eq
  intro j hj
  by_cases hlo : j < lo
  · simp [placeAt, hj, hlo]
  · have hback : lo + (j - lo) = j := by omega
    simp [placeAt, bitsAt, hj, hlo, hback, Bool.and_comm]

theorem placeAt_regAt (w : Word) (lo : Nat) : placeAt (regAt w lo).bits lo = w &&& placeAt (BitVec.allOnes 3) lo := by
  rw [regAt, bits_ofBits, placeAt_bitsAt]

/-- The bits of a word that a row's fields occupy: neither fixed nor ignored. -/
def fieldBits (f : Form) : Word := ~~~ (f.mask ||| f.ignored)

theorem operandBits_build (w : Word) (f : Form) : (Form.build w f).operandBits = w &&& fieldBits f := by
  cases f with
  | rti | res | getc | out | puts | in_ | putsp | halt => exact BitVec.and_zero.symm
  | _ =>
    simp only [Form.build, Instr.operandBits, placeAt_bitsAt, placeAt_regAt, ← BitVec.and_or_distrib_left]
    rfl

/-- What the encoder writes as the assembler's choice stays in the ignored bits (R90). -/
theorem canonicalIgnored_and_not_ignored (f : Form) : f.canonicalIgnored &&& ~~~ f.ignored = 0 := by
  cases f <;> decide

/-- Every bit that is not ignored is a fixed bit or a field bit. -/
theorem fixed_or_fieldBits (f : Form) : (f.mask ||| fieldBits f) &&& ~~~ f.ignored = ~~~ f.ignored := by
  cases f <;> decide

/-- What a row reads from a word it accepts encodes to the word again, but for the ignored bits. -/
theorem encode_build {w : Word} {f : Form} (h : w &&& f.mask = f.pattern) :
    encode (Form.build w f) &&& ~~~ f.ignored = w &&& ~~~ f.ignored := by
  calc encode (Form.build w f) &&& ~~~ f.ignored
      = (w &&& (f.mask ||| fieldBits f) ||| f.canonicalIgnored) &&& ~~~ f.ignored := by
        rw [encode, build_form, operandBits_build, ← h, BitVec.and_or_distrib_left]
    _ = w &&& ((f.mask ||| fieldBits f) &&& ~~~ f.ignored) ||| f.canonicalIgnored &&& ~~~ f.ignored := by
        rw [BitVec.and_or_distrib_right, BitVec.and_assoc]
    _ = w &&& ~~~ f.ignored := by
        rw [fixed_or_fieldBits, canonicalIgnored_and_not_ignored]; exact BitVec.or_zero

/-! ### The words without a row (R87, R88) -/

theorem opcode_toNat (w : Word) : (bitsAt w 12 4).toNat = w.toNat / 4096 := by
  simp [bitsAt, Nat.shiftRight_eq_div_pow]; omega

theorem vector_toNat (w : Word) : (bitsAt w 0 8).toNat = w.toNat % 256 := by simp [bitsAt]

/-- A field that a row fixes holds the row's value in every word of the row. -/
theorem bitsAt_of_row {w : Word} {f : Form} {lo n : Nat} (h : w &&& f.mask = f.pattern)
    (hfixed : bitsAt f.mask lo n = BitVec.allOnes n) : bitsAt w lo n = bitsAt f.pattern lo n := by
  have hand : bitsAt (w &&& f.mask) lo n = bitsAt w lo n &&& bitsAt f.mask lo n := BitVec.extractLsb'_and
  rw [← h, hand, hfixed, BitVec.and_allOnes]

theorem opcode_fixed (f : Form) : bitsAt f.mask 12 4 = BitVec.allOnes 4 := by cases f <;> decide

/-- Every row with opcode 15 fixes the vector to one of the six (R87). -/
theorem vector_fixed {f : Form} (h : bitsAt f.pattern 12 4 = 15) : bitsAt f.mask 0 8 = BitVec.allOnes 8 ∧
    0x20 ≤ (bitsAt f.pattern 0 8).toNat ∧ (bitsAt f.pattern 0 8).toNat ≤ 0x25 := by
  revert h; cases f <;> decide

/-- Below opcode 15, the opcode and the two mode bits of R85 pick a row, and the row fixes no other bit. -/
theorem row_of_opcode : ∀ op : BitVec 4, op ≠ 15 → ∀ mode11 mode5 : BitVec 1, ∃ f ∈ Form.all,
    0xF820 &&& f.mask = f.mask ∧ (placeAt op 12 ||| placeAt mode11 11 ||| placeAt mode5 5) &&& f.mask = f.pattern := by
  decide

/-- At opcode 15, each of the six vectors picks a row, and the row fixes no other bit. -/
theorem row_of_vector : ∀ v : BitVec 8, 0x20 ≤ v.toNat → v.toNat ≤ 0x25 → ∃ f ∈ Form.all,
    f.mask = 0xF0FF ∧ placeAt (15 : BitVec 4) 12 ||| placeAt v 0 = f.pattern := by
  decide

theorem exists_row_of_opcode_ne {w : Word} (h : bitsAt w 12 4 ≠ 15) : ∃ f : Form, w &&& f.mask = f.pattern := by
  obtain ⟨f, -, hmask, hpattern⟩ := row_of_opcode _ h (bitsAt w 11 1) (bitsAt w 5 1)
  have hbits : placeAt (bitsAt w 12 4) 12 ||| placeAt (bitsAt w 11 1) 11 ||| placeAt (bitsAt w 5 1) 5 =
      w &&& 0xF820 := by
    simp only [placeAt_bitsAt, ← BitVec.and_or_distrib_left]
    rfl
  exact ⟨f, by rw [← hpattern, hbits, BitVec.and_assoc, hmask]⟩

theorem exists_row_of_listed_vector {w : Word} (h : bitsAt w 12 4 = 15) (hlo : 0x20 ≤ (bitsAt w 0 8).toNat)
    (hhi : (bitsAt w 0 8).toNat ≤ 0x25) : ∃ f : Form, w &&& f.mask = f.pattern := by
  obtain ⟨f, -, hmask, hpattern⟩ := row_of_vector _ hlo hhi
  refine ⟨f, ?_⟩
  rw [hmask, ← hpattern, ← h, placeAt_bitsAt, placeAt_bitsAt, ← BitVec.and_or_distrib_left]
  rfl

/-- The words without a row are those with opcode 15 and a vector none of the six. -/
theorem no_row_iff {w : Word} : (∀ f : Form, w &&& f.mask ≠ f.pattern) ↔
    bitsAt w 12 4 = 15 ∧ ((bitsAt w 0 8).toNat < 0x20 ∨ 0x25 < (bitsAt w 0 8).toNat) := by
  constructor
  · intro hnone
    have h15 : bitsAt w 12 4 = 15 := by
      by_contra hne
      obtain ⟨f, hf⟩ := exists_row_of_opcode_ne hne
      exact hnone f hf
    refine ⟨h15, ?_⟩
    by_contra hlisted
    obtain ⟨f, hf⟩ := exists_row_of_listed_vector h15 (by omega) (by omega)
    exact hnone f hf
  · rintro ⟨h15, hunlisted⟩ f hf
    obtain ⟨hfixed, hlo, hhi⟩ := vector_fixed ((bitsAt_of_row hf (opcode_fixed f)).symm.trans h15)
    rw [bitsAt_of_row hf hfixed] at hunlisted
    omega

end Sys2Proof.Proofs
end

section
/-! The statements of the family 30_encoding.md. -/

namespace Sys2Proof.Proofs

open Sys2Proof.Laws

/-- Settles O2: the encoding has its own row's fixed bits, and its fields read back. -/
theorem decodeOfEncodeIsTheInstruction : Obligations.DecodeOfEncodeIsTheInstruction :=
  fun i => (decode_of_row (encode_and_mask i)).trans (congrArg Decoded.instr (build_encode i))

/-- Settles O3, through the row by which the word decodes. -/
theorem encodeOfDecodeAgreesOnFieldBits : Obligations.EncodeOfDecodeAgreesOnFieldBits := by
  intro w i h
  obtain ⟨f, hf, rfl⟩ := row_of_decode h
  rw [build_form]
  exact encode_build hf

/-- Settles O4: each clause is the row test of one row. -/
theorem fieldsStandWhereTheTableSays : Obligations.FieldsStandWhereTheTableSays :=
  ⟨bits_ofBits, by decide, fun _ =>
    ⟨decode_of_row (f := .br), decode_of_row (f := .addReg), decode_of_row (f := .addImm), decode_of_row (f := .ld),
      decode_of_row (f := .st), decode_of_row (f := .jsr), decode_of_row (f := .jsrr), decode_of_row (f := .andReg),
      decode_of_row (f := .andImm), decode_of_row (f := .ldr), decode_of_row (f := .str), decode_of_row (f := .rti),
      decode_of_row (f := .not), decode_of_row (f := .ldi), decode_of_row (f := .sti), decode_of_row (f := .jmp),
      decode_of_row (f := .res), decode_of_row (f := .lea), decode_of_row (f := .getc), decode_of_row (f := .out),
      decode_of_row (f := .puts), decode_of_row (f := .in_), decode_of_row (f := .putsp), decode_of_row (f := .halt)⟩⟩

/-- Settles O5: a word is rejected when no row has it, which its opcode and vector decide. -/
theorem onlyUnlistedTrapVectorsAreRejected : Obligations.OnlyUnlistedTrapVectorsAreRejected := by
  intro w
  rw [decode_reject_iff, no_row_iff, ← opcode_toNat, ← vector_toNat, ← BitVec.toNat_inj]
  rfl

/-- Settles O1: the decoder runs on each word. -/
theorem sampleWordsDecodeAsWritten : Obligations.SampleWordsDecodeAsWritten := by
  unfold Obligations.SampleWordsDecodeAsWritten
  decide

end Sys2Proof.Proofs
end

section
/-! SUPPORT. The condition code of a value, the instructions that set it, the end of a held read, and when RUN is
cleared. -/

namespace Sys2Proof.Proofs

open Sys2Proof.Machine Sys2Proof.Laws

/-! ### Condition codes (R116) -/

theorem condOf_zero : condOf 0 = condZro := rfl

theorem condOf_negative {v : Word} (h : 0x8000 ≤ v.toNat) : condOf v = condNeg := by
  have hzero : v ≠ 0 := by bv_omega
  have hsign : v.getLsbD 15 = true := (BitVec.msb_eq_decide v).trans (decide_eq_true h)
  rw [condOf, if_neg hzero, if_pos hsign]

theorem condOf_positive {v : Word} (h : 1 ≤ v.toNat) (h' : v.toNat ≤ 0x7FFF) : condOf v = condPos := by
  have hzero : v ≠ 0 := by bv_omega
  have hsign : v.getLsbD 15 = false := (BitVec.msb_eq_decide v).trans (decide_eq_false (Nat.not_le_of_lt (by omega)))
  rw [condOf, if_neg hzero, if_neg (Bool.eq_false_iff.mp hsign)]

/-- The sign bit and the numeric ranges give the same code. -/
theorem condOf_eq_flagsOf (v : Word) : condOf v = flagsOf v := by
  unfold flagsOf
  split
  · next h => rw [BitVec.eq_of_toNat_eq (y := 0) h]; exact condOf_zero
  · split
    · next h => exact condOf_negative h
    · exact condOf_positive (by omega) (by omega)

/-! ### Who sets the flags (R117) -/

/-- Each of the seven flag-updating instructions ends in the result write to its destination. -/
theorem exec_writesResult {i : Instr} {dr : Reg} (hi : flagSource i = some dr) (s : State) :
    ∃ v u, exec i s = .next (writeResult dr v u) := by
  cases i with
  | addReg | addImm | andReg | andImm | not | ld | ldi | ldr | lea => cases hi; exact ⟨_, _, rfl⟩
  | br | st | jsr | jsrr | str | rti | sti | jmp | res | getc | out | puts | in_ | putsp | halt => cases hi

/-- Without a flag update among them, the operations leave COND as it was. -/
theorem Performs.cond {i : Instr} {s t : State} (h : Performs i s t) (hi : flagSource i = none) : t.cond = s.cond := by
  induction h with
  | start => rfl
  | setsFlags _ hf _ _ => exact absurd hi hf
  | reads _ _ _ ih | readsChar _ _ _ ih => simpa using ih
  | writesReg _ _ _ _ ih | movesPc _ _ _ ih | stores _ _ _ _ ih | prints _ _ ih | halts _ _ ih => exact ih

/-! ### The end of a character read (R122, R161, R164) -/

/-- With a character pending, GETC and IN take it and are done. -/
theorem readCharThen_finishes {h : HeldRead} {s : State} {c : Byte} {rest : List Byte} (hk : s.kbq = c :: rest) :
    FinishesRead h c rest s (readCharThen h s) := by
  have hregs := readCharThen_keepsRegs h s
  rw [readCharThen_pending hk] at hregs ⊢
  rw [FinishesRead, ← zext_eq_ofNat]
  cases h with
  | getc => exact ⟨setReg_reg_same _ .r0 _, hregs, rfl, rfl, (List.append_nil _).symm, rfl, rfl, rfl, rfl, fun _ => rfl⟩
  | in_ => exact ⟨setReg_reg_same _ .r0 _, hregs, rfl, rfl, rfl, rfl, rfl, rfl, rfl, fun _ => rfl⟩

/-- So does the step of a core held there. -/
theorem step_held_finishes {h : HeldRead} {s : State} {c : Byte} {rest : List Byte} (hr : s.run = true)
    (hh : s.hold = some h) (hk : s.kbq = c :: rest) : ∃ t, step s = .next t ∧ FinishesRead h c rest s t :=
  ⟨_, (step_held hr hh).trans (resumeRead_pending h (by simp [hk])), readCharThen_finishes hk⟩

/-! ### When RUN is cleared (R110) -/

/-- Of the instructions, HALT alone stops a running core. -/
theorem exec_stops_iff {i : Instr} {s t : State} (hr : s.run = true) (h : exec i s = .next t) :
    t.run = false ↔ i = .halt := by
  constructor
  · intro ht
    by_contra hi
    have hrun := ((performs_of_exec h).run_stop hi).1
    simp [hrun, hr] at ht
  · rintro rfl
    cases h
    rfl

end Sys2Proof.Proofs
end

section
/-! The statements of the family 40_cycle.md. -/

namespace Sys2Proof.Proofs

open Sys2Proof.Machine Sys2Proof.Laws

/-- Settles O8, by the three ways a step can go: a resumed read keeps RUN, an instruction clears it when it is HALT,
and a decode error clears it. -/
theorem haltedIsEnteredByHaltOrDecodeErrorAndNeverLeft :
    Obligations.HaltedIsEnteredByHaltOrDecodeErrorAndNeverLeft := by
  refine ⟨fun s t hr => by simp [step_halted hr], fun s t h => ?_⟩
  have hr := run_of_step h
  cases stepCase_of_step h with
  | resumed held hh _ ht => simp [ht, hr, hh]
  | ran i hh hd he =>
    have hfetch : (fetch s).2.run = true := by simpa [fetch_state] using hr
    simp [hh, hd, exec_stops_iff hfetch he]
  | rejected r hh hd ht => simp [ht, raiseDecodeError, hh, hd]

/-- Settles O9: each clause is one of the ways a step can go. -/
theorem stepIsDefinedUnlessHaltedOrHeld : Obligations.StepIsDefinedUnlessHaltedOrHeld := by
  refine fun s => ⟨step_defined, fun hr hhold hk => ?_, step_halted⟩
  obtain ⟨held, hh⟩ := Option.ne_none_iff_exists'.mp hhold
  exact (step_held hr hh).trans (resumeRead_empty held hk)

/-- Settles O32: a delivery to an empty queue makes the character the first pending one. -/
theorem heldReadWaitsForOneCharacter : Obligations.HeldReadWaitsForOneCharacter := by
  refine fun s h hr hh => ⟨fun hk => ⟨(step_held hr hh).trans (resumeRead_empty h hk), fun c => ?_⟩,
    fun c rest hk => step_held_finishes hr hh hk⟩
  have hkc : (s.deliver c).kbq = [c] := by simp [hk]
  exact step_held_finishes (s := s.deliver c) hr hh hkc

/-- Settles O43: the bits above the field are its most significant one. -/
theorem sextCopiesTheSignBit : Obligations.SextCopiesTheSignBit := by
  refine fun n v _ hn => ⟨fun k hk => ?_, BitVec.toInt_signExtend_of_le hn, by decide, by decide⟩
  rw [sext_bit v hk, BitVec.msb_eq_getLsbD_last]

/-- Settles O45: the seven end in the result write, and no operation of the others sets the flags. -/
theorem onlySevenInstructionsUpdateTheFlags : Obligations.OnlySevenInstructionsUpdateTheFlags := by
  refine fun i s t h => ⟨fun dr hdr => ?_, (performs_of_exec h).cond⟩
  obtain ⟨v, u, hw⟩ := exec_writesResult hdr s
  cases hw.symm.trans h
  rw [writeResult_cond, writeResult_reg_same, condOf_eq_flagsOf]

/-- Settles O6, by what the fetched word decodes to. -/
theorem stepFetchesIncrementsAndRuns : Obligations.StepFetchesIncrementsAndRuns := by
  intro s hr hh ir s'
  have hfetch : (fetch s).2 = s' := fetch_state s
  exact ⟨fun i hd => hfetch ▸ step_instr hr hh hd, fun r hd => ⟨_, step_reject hr hh hd, hfetch ▸ rfl⟩⟩

/-- Settles O44: the code by the three ranges of the value. -/
theorem setCcGivesExactlyOneFlag : Obligations.SetCcGivesExactlyOneFlag :=
  fun _ _ => ⟨fun hv => hv ▸ condOf_zero, condOf_negative, condOf_positive, fun _ _ => rfl, rfl, fun _ => rfl,
    ⟨rfl, rfl, rfl⟩, ⟨rfl, rfl⟩⟩

end Sys2Proof.Proofs
end

section
/-! SUPPORT. What a result write leaves, and the results of ADD, AND and NOT in the words of their rules. -/

namespace Sys2Proof.Proofs

open Sys2Proof.Machine Sys2Proof.Laws

/-! ### The result write as the statements speak of it (R117) -/

theorem writeResult_writesResult (dr : Reg) (v : Word) (s : State) : WritesResult dr v s (writeResult dr v s) :=
  ⟨writeResult_reg_same dr v s, condOf_eq_flagsOf v,
    fun _ hr => writeResult_reg_other v s (by simpa using hr), rfl, ⟨rfl, rfl, rfl⟩, rfl⟩

/-- It touches neither memory nor the keyboard queue. -/
theorem writeResult_only (dr : Reg) (v : Word) (s : State) :
    WritesResult dr v s (writeResult dr v s) ∧ KeepsMemory s (writeResult dr v s) ∧
      (writeResult dr v s).kbq = s.kbq :=
  ⟨writeResult_writesResult dr v s, fun _ => rfl, rfl⟩

/-! ### The results (R130 to R134) -/

/-- A sign-extended field repeats its top bit from there on (R115). -/
theorem sext_bit_min {n : Nat} (v : BitVec n) {k : Nat} (hk : k < 16) :
    (sext v).getLsbD k = v.getLsbD (min k (n - 1)) := by
  rw [sext_bit v hk]
  split
  · next h => rw [min_eq_left (by omega)]
  · next h => rw [BitVec.msb_eq_getLsbD_last, min_eq_right (by omega)]

/-- The complement is taken from 0xFFFF, without a borrow. -/
theorem not_eq_ofNat_sub (v : Word) : ~~~ v = BitVec.ofNat 16 (0xFFFF - v.toNat) := by
  apply BitVec.eq_of_toNat_eq
  have hlt : 0xFFFF - v.toNat < 2 ^ 16 := by omega
  rw [BitVec.toNat_not, BitVec.toNat_ofNat, Nat.mod_eq_of_lt hlt]

theorem exec_addReg (dr sr1 sr2 : Reg) (s : State) : exec (.addReg dr sr1 sr2) s =
    .next (writeResult dr (BitVec.ofNat 16 ((s.reg sr1).toNat + (s.reg sr2).toNat)) s) :=
  congrArg (fun v => Host.Outcome.next (writeResult dr v s)) (BitVec.add_def _ _)

theorem exec_addImm (dr sr1 : Reg) (imm5 : BitVec 5) (s : State) : exec (.addImm dr sr1 imm5) s =
    .next (writeResult dr (BitVec.ofInt 16 ((s.reg sr1).toNat + imm5.toInt)) s) :=
  congrArg (fun v => Host.Outcome.next (writeResult dr v s)) (add_sext _ imm5)

theorem exec_andReg (dr sr1 sr2 : Reg) (s : State) : exec (.andReg dr sr1 sr2) s =
    .next (writeResult dr (s.reg sr1 &&& s.reg sr2) s) := rfl

theorem exec_andImm (dr sr1 : Reg) (imm5 : BitVec 5) (s : State) : exec (.andImm dr sr1 imm5) s =
    .next (writeResult dr (s.reg sr1 &&& sext imm5) s) := rfl

theorem exec_not (dr sr1 : Reg) (s : State) : exec (.not dr sr1) s =
    .next (writeResult dr (BitVec.ofNat 16 (0xFFFF - (s.reg sr1).toNat)) s) :=
  congrArg (fun v => Host.Outcome.next (writeResult dr v s)) (not_eq_ofNat_sub _)

end Sys2Proof.Proofs
end

section
/-! The statements of the family 41_operate.md. -/

namespace Sys2Proof.Proofs

open Sys2Proof.Machine Sys2Proof.Laws

/-- Settles O12: the sum of two words is the sum of their values modulo 65536. -/
theorem addRegisterGivesTheSum : Obligations.AddRegisterGivesTheSum :=
  fun dr sr1 sr2 s => ⟨_, exec_addReg dr sr1 sr2 s, writeResult_only dr _ s⟩

/-- Settles O13: adding the sign-extended immediate is adding the number it denotes. -/
theorem addImmediateGivesTheSum : Obligations.AddImmediateGivesTheSum :=
  fun dr sr1 imm5 s => ⟨_, exec_addImm dr sr1 imm5 s, writeResult_only dr _ s⟩

/-- Settles O14, bit by bit. -/
theorem andRegisterGivesTheBitwiseAnd : Obligations.AndRegisterGivesTheBitwiseAnd :=
  fun dr sr1 sr2 s => ⟨_, _, exec_andReg dr sr1 sr2 s, fun _ _ => BitVec.getLsbD_and, writeResult_only dr _ s⟩

/-- Settles O15: from bit 4 on, the mask repeats the immediate's sign bit. -/
theorem andImmediateSignExtendsTheMask : Obligations.AndImmediateSignExtendsTheMask := by
  refine fun dr sr1 imm5 s => ⟨_, _, exec_andImm dr sr1 imm5 s, fun k hk => ?_, writeResult_only dr _ s⟩
  rw [BitVec.getLsbD_and, sext_bit_min imm5 hk]

/-- Settles O16: the complement of a word is 0xFFFF minus its value. -/
theorem notGivesTheComplement : Obligations.NotGivesTheComplement :=
  fun dr sr1 s => ⟨_, exec_not dr sr1 s, writeResult_only dr _ s⟩

end Sys2Proof.Proofs
end

section
/-! SUPPORT. What the control instructions do, in the words of their rules, and what a jump and a linked jump leave. -/

namespace Sys2Proof.Proofs

open Sys2Proof.Machine Sys2Proof.Laws

/-! ### A jump and a linked jump, as the statements speak of them (R118) -/

/-- A jump moves the PC alone. -/
theorem setPc_only (target : Word) (s : State) :
    KeepsRegs [] s (s.setPc target) ∧ (s.setPc target).cond = s.cond ∧ KeepsRun s (s.setPc target) ∧
      KeepsDevices s (s.setPc target) ∧ KeepsMemory s (s.setPc target) :=
  ⟨fun _ _ => rfl, rfl, ⟨rfl, rfl, rfl⟩, ⟨rfl, rfl⟩, fun _ => rfl⟩

/-- A jump with a link in register `r` moves the PC and writes `r`, and nothing else. -/
theorem setReg_setPc_only (r : Reg) (v target : Word) (s : State) :
    KeepsRegs [r] s ((s.setReg r v).setPc target) ∧ ((s.setReg r v).setPc target).cond = s.cond ∧
      KeepsRun s ((s.setReg r v).setPc target) ∧ KeepsDevices s ((s.setReg r v).setPc target) ∧
      KeepsMemory s ((s.setReg r v).setPc target) :=
  ⟨fun _ hq => setReg_reg_other s v (by simpa using hq), rfl, ⟨rfl, rfl, rfl⟩, ⟨rfl, rfl⟩, fun _ => rfl⟩

/-! ### The targets (R140 to R143) -/

/-- A BR that is not taken is one to PC†, where the PC stands already. -/
theorem exec_br (nzp : BitVec 3) (offset9 : BitVec 9) (s : State) : exec (.br nzp offset9) s =
    .next (s.setPc (if (nzp.getLsbD 2 && s.cond.getLsbD 2) || (nzp.getLsbD 1 && s.cond.getLsbD 1) ||
        (nzp.getLsbD 0 && s.cond.getLsbD 0)
      then BitVec.ofInt 16 (s.pc.toNat + offset9.toInt) else s.pc)) := by
  have hstays : s = s.setPc s.pc := rfl
  rw [← branchTaken_eq, ← pcRelative_eq, apply_ite s.setPc, ← hstays]
  rfl

theorem exec_jmp (base : Reg) (s : State) : exec (.jmp base) s = .next (s.setPc (s.reg base)) := rfl

theorem exec_jsr (offset11 : BitVec 11) (s : State) : exec (.jsr offset11) s =
    .next ((s.setReg .r7 s.pc).setPc (BitVec.ofInt 16 (s.pc.toNat + offset11.toInt))) :=
  congrArg (fun target => Host.Outcome.next ((s.setReg .r7 s.pc).setPc target)) (pcRelative_eq offset11 s)

/-- The base is read after the link is written, so that base R7 gives the link (D8). -/
theorem exec_jsrr (base : Reg) (s : State) : exec (.jsrr base) s =
    .next ((s.setReg .r7 s.pc).setPc (if base = .r7 then s.pc else s.reg base)) :=
  congrArg (fun target => Host.Outcome.next ((s.setReg .r7 s.pc).setPc target)) (setReg_reg s .r7 base s.pc)

end Sys2Proof.Proofs
end

section
/-! The statements of the family 42_control.md. -/

namespace Sys2Proof.Proofs

open Sys2Proof.Machine Sys2Proof.Laws

/-- Settles O17, by the branch test bit by bit. -/
theorem brTestsTheMaskAgainstCond : Obligations.BrTestsTheMaskAgainstCond :=
  fun nzp offset9 s => ⟨_, exec_br nzp offset9 s, rfl, setPc_only _ s⟩

/-- Settles O19: a jump to the base register is all that JMP does. -/
theorem jmpGoesToTheBaseRegister : Obligations.JmpGoesToTheBaseRegister :=
  fun base s => ⟨_, exec_jmp base s, rfl, setPc_only _ s⟩

/-- Settles O20: the link does not disturb the target, which is relative to PC†. -/
theorem jsrLinksAndJumps : Obligations.JsrLinksAndJumps :=
  fun offset11 s => ⟨_, exec_jsr offset11 s, setReg_reg_same s .r7 s.pc, rfl, setReg_setPc_only .r7 _ _ s⟩

/-- Settles O21, by whether the base is the register of the link. -/
theorem jsrrLinksBeforeItReadsTheBase : Obligations.JsrrLinksBeforeItReadsTheBase :=
  fun base s => ⟨_, exec_jsrr base s, setReg_reg_same s .r7 s.pc, fun hother => if_neg hother,
    fun hlink => if_pos hlink, setReg_setPc_only .r7 _ _ s⟩

/-- Settles O22: both answer the state that the fetch left. -/
theorem rtiAndResDoNothing : Obligations.RtiAndResDoNothing :=
  fun _ => ⟨rfl, rfl⟩

end Sys2Proof.Proofs
end

section
/-! SUPPORT. What the loads and stores do, in the words of their rules, and what a load leaves. -/

namespace Sys2Proof.Proofs

open Sys2Proof.Machine Sys2Proof.Laws

/-! ### A load, as the statements speak of it (R117, R150 to R152) -/

/-- A read beforehand adds nothing to what a result write changes, memory and the keyboard queue apart. -/
theorem writesResult_of_memRead {dr : Reg} {v a : Word} {s t : State} (h : WritesResult dr v (memRead a s).2 t) :
    WritesResult dr v s t := by
  simpa [WritesResult, KeepsRegs, KeepsRun] using h

/-- The result write keeps memory and the queue as the read left them. -/
theorem loadFrom_afterRead (dr : Reg) (ea : Word) (s : State) :
    AfterRead s ea (memRead ea s).1 (loadFrom dr ea s) := memRead_afterRead ea s

theorem loadFrom_writesResult (dr : Reg) (ea : Word) (s : State) :
    WritesResult dr (memRead ea s).1 s (loadFrom dr ea s) :=
  writesResult_of_memRead (writeResult_writesResult dr _ _)

/-! ### The addresses (R150 to R156) -/

theorem exec_ld (dr : Reg) (offset9 : BitVec 9) (s : State) : exec (.ld dr offset9) s =
    .next (loadFrom dr (BitVec.ofInt 16 (s.pc.toNat + offset9.toInt)) s) :=
  congrArg (fun ea => Host.Outcome.next (loadFrom dr ea s)) (pcRelative_eq offset9 s)

theorem exec_ldi (dr : Reg) (offset9 : BitVec 9) (s : State) : exec (.ldi dr offset9) s =
    .next (loadFrom dr (memRead (BitVec.ofInt 16 (s.pc.toNat + offset9.toInt)) s).1
      (memRead (BitVec.ofInt 16 (s.pc.toNat + offset9.toInt)) s).2) :=
  congrArg (fun ea => Host.Outcome.next (loadFrom dr (memRead ea s).1 (memRead ea s).2)) (pcRelative_eq offset9 s)

theorem exec_ldr (dr base : Reg) (offset6 : BitVec 6) (s : State) : exec (.ldr dr base offset6) s =
    .next (loadFrom dr (BitVec.ofInt 16 ((s.reg base).toNat + offset6.toInt)) s) :=
  congrArg (fun ea => Host.Outcome.next (loadFrom dr ea s)) (basePlusOffset_eq base offset6 s)

theorem exec_lea (dr : Reg) (offset9 : BitVec 9) (s : State) : exec (.lea dr offset9) s =
    .next (writeResult dr (BitVec.ofInt 16 (s.pc.toNat + offset9.toInt)) s) :=
  congrArg (fun v => Host.Outcome.next (writeResult dr v s)) (pcRelative_eq offset9 s)

theorem exec_st (sr : Reg) (offset9 : BitVec 9) (s : State) : exec (.st sr offset9) s =
    .next (memWrite (BitVec.ofInt 16 (s.pc.toNat + offset9.toInt)) (s.reg sr) s) :=
  congrArg (fun ea => Host.Outcome.next (memWrite ea (s.reg sr) s)) (pcRelative_eq offset9 s)

/-- The pointer read keeps the source register. -/
theorem exec_sti (sr : Reg) (offset9 : BitVec 9) (s : State) : exec (.sti sr offset9) s =
    .next (memWrite (memRead (BitVec.ofInt 16 (s.pc.toNat + offset9.toInt)) s).1 (s.reg sr)
      (memRead (BitVec.ofInt 16 (s.pc.toNat + offset9.toInt)) s).2) := by
  rw [← pcRelative_eq, ← memRead_reg (pcRelative offset9 s) s sr]
  rfl

theorem exec_str (sr base : Reg) (offset6 : BitVec 6) (s : State) : exec (.str sr base offset6) s =
    .next (memWrite (BitVec.ofInt 16 ((s.reg base).toNat + offset6.toInt)) (s.reg sr) s) :=
  congrArg (fun ea => Host.Outcome.next (memWrite ea (s.reg sr) s)) (basePlusOffset_eq base offset6 s)

end Sys2Proof.Proofs
end

section
/-! The statements of the family 43_load_store.md. -/

namespace Sys2Proof.Proofs

open Sys2Proof.Machine Sys2Proof.Laws

/-- Settles O23: LD is one load from the address relative to PC†. -/
theorem ldLoadsFromThePcRelativeAddress : Obligations.LdLoadsFromThePcRelativeAddress :=
  fun dr offset9 s => ⟨_, _, exec_ld dr offset9 s, loadFrom_afterRead dr _ s, loadFrom_writesResult dr _ s⟩

/-- Settles O24: the load starts in the state that the pointer read leaves. -/
theorem ldiReadsThePointerThenTheData : Obligations.LdiReadsThePointerThenTheData :=
  fun dr offset9 s => ⟨_, _, _, _, exec_ldi dr offset9 s, memRead_afterRead _ s, loadFrom_afterRead dr _ _,
    writesResult_of_memRead (loadFrom_writesResult dr _ _)⟩

/-- Settles O25: LDR is one load, its address taken before the destination is written. -/
theorem ldrLoadsFromBasePlusOffset : Obligations.LdrLoadsFromBasePlusOffset :=
  fun dr base offset6 s =>
    ⟨_, _, exec_ldr dr base offset6 s, loadFrom_afterRead dr _ s, loadFrom_writesResult dr _ s⟩

/-- Settles O28: the pointer read keeps all but memory and the queue, and the store changes one word of what it left. -/
theorem stiStoresThroughThePointer : Obligations.StiStoresThroughThePointer :=
  fun sr offset9 s => ⟨_, _, _, exec_sti sr offset9 s, memRead_afterRead _ s, memWrite_read _ _ _, rfl,
    memRead_keepsRegs _ s, memRead_pc _ s, memRead_cond _ s, memRead_keepsRun _ s, memRead_con _ s⟩

/-- Settles O26: LEA writes its address as a result and reads nothing. -/
theorem leaGivesTheAddress : Obligations.LeaGivesTheAddress :=
  fun dr offset9 s => ⟨_, exec_lea dr offset9 s, writeResult_only dr _ s⟩

/-- Settles O27: ST is one memory write, which changes one word and nothing else. -/
theorem stStoresAtThePcRelativeAddress : Obligations.StStoresAtThePcRelativeAddress :=
  fun sr offset9 s => ⟨_, exec_st sr offset9 s, memWriteChangesTheOneWord _ _ s⟩

/-- Settles O29: STR is the same write at the base register plus the offset. -/
theorem strStoresAtBasePlusOffset : Obligations.StrStoresAtBasePlusOffset :=
  fun sr base offset6 s => ⟨_, exec_str sr base offset6 s, memWriteChangesTheOneWord _ _ s⟩

end Sys2Proof.Proofs
end

section
/-! SUPPORT. The trap services: the codes that OUT and PUTSP print, what printing leaves, and the string walk as the
unbounded loop of R163 and R165, with what that loop prints for a string that does not pass KBSR. -/

namespace Sys2Proof.Proofs

open Sys2Proof.Machine Sys2Proof.Laws

/-! ### Printing (R162, R165, R192) -/

/-- Printing changes the console alone. -/
theorem consoleWriteAll_only (cs : List Word) (s : State) :
    (consoleWriteAll cs s).kbq = s.kbq ∧ KeepsRegs [] s (consoleWriteAll cs s) ∧ (consoleWriteAll cs s).pc = s.pc ∧
      (consoleWriteAll cs s).cond = s.cond ∧ KeepsRun s (consoleWriteAll cs s) ∧
      KeepsMemory s (consoleWriteAll cs s) :=
  ⟨rfl, fun _ _ => rfl, rfl, rfl, ⟨rfl, rfl, rfl⟩, fun _ => rfl⟩

theorem lowByte_toNat (w : Word) : (w.extractLsb' 0 8).toNat = w.toNat % 256 := vector_toNat w

theorem highByte_toNat (w : Word) : (w.extractLsb' 8 8).toNat = w.toNat / 256 := by
  have hlt : w.toNat / 256 < 256 := by omega
  simp [BitVec.extractLsb'_toNat, Nat.shiftRight_eq_div_pow, Nat.mod_eq_of_lt hlt]

theorem highByte_eq_zero_iff (w : Word) : w.extractLsb' 8 8 = 0 ↔ w.toNat / 256 = 0 := by
  rw [← highByte_toNat]
  exact BitVec.toNat_inj.symm

/-- The characters of a packed word, as numbers. -/
theorem putspChars_eq : putspChars = fun w => BitVec.ofNat 16 (w.toNat % 256) ::
    (if w.toNat / 256 = 0 then [] else [BitVec.ofNat 16 (w.toNat / 256)]) := by
  funext w
  simp only [putspChars, zext_eq_ofNat, lowByte_toNat, highByte_toNat, highByte_eq_zero_iff]

theorem exec_out (s : State) :
    exec .out s = .next (consoleWriteAll [BitVec.ofNat 16 ((s.reg .r0).toNat % 256)] s) := by
  rw [← lowByte_toNat, ← zext_eq_ofNat]
  rfl

/-! ### The walk is the loop of the spec, and that loop ends (R163, R165, R218) -/

variable {chars : Word → List Word} {a : Word} {s t : State} {ws : List Word} {m : Memory}

theorem walks_of_stringWalk {n : Nat} (h : stringWalk chars n a s = some t) : Walks chars a s t := by
  induction n generalizing a s with
  | zero => simp [stringWalk_zero] at h
  | succ n ih =>
    rw [stringWalk_succ] at h
    split at h
    · next hzero => cases h; exact .stop hzero
    · next hword => exact .more hword (ih h)

theorem writeString_walks (chars : Word → List Word) (s : State) :
    ∃ t, Walks chars (s.reg .r0) s t ∧ writeString chars s = .next (consoleWriteAll [0x000A] t) := by
  obtain ⟨t, hwalk, hnext⟩ := writeString_next chars s
  exact ⟨t, walks_of_stringWalk hwalk, hnext⟩

/-! ### A string that does not pass KBSR -/

/-- Nonzero words at consecutive addresses from `a` on, modulo 65536, and a zero word behind them, none at KBSR. -/
structure StringAt (m : Memory) (a : Word) (ws : List Word) : Prop where
  words : ∀ k w, ws[k]? = some w → w ≠ 0 ∧ Memory.read m ((a.toNat + k) % 65536) = w
  zero : Memory.read m ((a.toNat + ws.length) % 65536) = 0
  avoids : ∀ k, k ≤ ws.length → (a.toNat + k) % 65536 ≠ 0xFE00

/-- The walk's addresses wrap as those of the statements do. -/
theorem toNat_succ_add (a : Word) (k : Nat) : ((a + 1).toNat + k) % 65536 = (a.toNat + (k + 1)) % 65536 := by
  have hsucc : (a + 1).toNat = (a.toNat + 1) % 65536 := BitVec.toNat_add a 1
  omega

theorem StringAt.ne_kbsr (h : StringAt m a ws) : a ≠ 0xFE00 := by
  rintro rfl
  exact h.avoids 0 (Nat.zero_le _) rfl

theorem StringAt.read_nil (h : StringAt m a []) : Memory.read m a.toNat = 0 := by
  simpa [Nat.mod_eq_of_lt a.isLt] using h.zero

theorem StringAt.read_cons {w : Word} (h : StringAt m a (w :: ws)) : w ≠ 0 ∧ Memory.read m a.toNat = w := by
  simpa [Nat.mod_eq_of_lt a.isLt] using h.words 0 w rfl

theorem StringAt.tail {w : Word} (h : StringAt m a (w :: ws)) : StringAt m (a + 1) ws where
  words k v hv := by rw [toNat_succ_add]; exact h.words (k + 1) v hv
  zero := by rw [toNat_succ_add]; exact h.zero
  avoids k hk := by rw [toNat_succ_add]; exact h.avoids (k + 1) (Nat.succ_le_succ hk)

/-- One pass of the loop at an address that is not KBSR's. -/
theorem walks_plain (hw : Walks chars a s t) (ha : a ≠ 0xFE00) :
    if s.cell a = 0 then t = s else Walks chars (a + 1) (consoleWriteAll (chars (s.cell a)) s) t := by
  have hread := memRead_plain s ha
  cases hw with
  | stop hzero => rw [hread] at hzero ⊢; exact (if_pos hzero).mpr rfl
  | more hword hrest => rw [hread] at hword hrest; exact (if_neg hword).mpr hrest

/-- Over such a string the loop prints the characters of each word and does nothing else: it never polls. -/
theorem walks_stringAt (hw : Walks chars a s t) (h : StringAt s.mem a ws) :
    t = consoleWriteAll (ws.flatMap chars) s := by
  induction ws generalizing a s with
  | nil =>
    have hpass := walks_plain hw h.ne_kbsr
    have hcell : s.cell a = 0 := h.read_nil
    rw [if_pos hcell] at hpass
    simp [hpass, consoleWriteAll]
  | cons w ws ih =>
    have hpass := walks_plain hw h.ne_kbsr
    obtain ⟨hw0, hcell⟩ : w ≠ 0 ∧ s.cell a = w := h.read_cons
    rw [hcell, if_neg hw0] at hpass
    rw [ih hpass h.tail]
    simp [consoleWriteAll]

/-- What PUTS and PUTSP leave for a string at R0: its characters and the newline, and all else unchanged. -/
theorem writeString_of_stringAt (chars : Word → List Word) (h : StringAt s.mem (s.reg .r0) ws) :
    ∃ t, writeString chars s = .next t ∧ t.con = s.con ++ ws.flatMap chars ++ [0x000A] ∧ t.kbq = s.kbq ∧
      KeepsRegs [] s t ∧ t.pc = s.pc ∧ t.cond = s.cond ∧ KeepsRun s t ∧ KeepsMemory s t := by
  obtain ⟨t, hw, hnext⟩ := writeString_walks chars s
  obtain rfl := walks_stringAt hw h
  exact ⟨_, hnext, rfl, consoleWriteAll_only (ws.flatMap chars) s⟩

/-! ### GETC, IN and HALT (R161, R164, R166) -/

theorem exec_getc (s : State) : exec .getc s = .next (readCharThen .getc s) := rfl

theorem exec_in (s : State) : exec .in_ s = .next (readCharThen .in_ (consoleWriteAll prompt s)) := rfl

theorem exec_halt (s : State) : exec .halt s = .next (stopWith .haltTrap (consoleWriteAll haltLine s)) := rfl

end Sys2Proof.Proofs
end

section
/-! The statements of the family 44_trap.md. -/

namespace Sys2Proof.Proofs

open Sys2Proof.Machine Sys2Proof.Laws

/-- Settles O34: PUTS prints each word whole. -/
theorem putsWritesTheStringAndANewline : Obligations.PutsWritesTheStringAndANewline := by
  intro s ws hwords hzero havoids
  have h := writeString_of_stringAt putsChars ⟨hwords, hzero, havoids⟩
  rwa [show ws.flatMap putsChars = ws from List.flatMap_singleton' ws] at h

/-- Settles O35: PUTSP prints the bytes of each word. -/
theorem putspWritesThePackedStringAndANewline : Obligations.PutspWritesThePackedStringAndANewline := by
  intro s ws hwords hzero havoids
  rw [← putspChars_eq]
  exact writeString_of_stringAt putspChars ⟨hwords, hzero, havoids⟩

/-- Settles O36: the bounded walk that each of the two makes is its unbounded loop, and its bound is never reached. -/
theorem putsAndPutspAlwaysFinishTheirLoop : Obligations.PutsAndPutspAlwaysFinishTheirLoop := by
  intro s
  rw [← putspChars_eq]
  exact ⟨writeString_walks putsChars s, writeString_walks putspChars s⟩

/-- Settles O30, by whether a character is pending. -/
theorem getcTakesACharacterOrIsHeld : Obligations.GetcTakesACharacterOrIsHeld := by
  refine fun s => ⟨fun c rest hk => ⟨_, exec_getc s, ?_⟩, fun hk => ?_⟩
  · obtain ⟨hr0, hregs, hkbq, hhold, hcon, hpc, hcond, hrun, hstop, hmem⟩ := readCharThen_finishes (h := .getc) hk
    exact ⟨hr0, hregs, hkbq, by simpa using hcon, hpc, hcond, hrun, hstop, hhold, hmem⟩
  · rw [exec_getc, readCharThen_empty hk]

/-- Settles O31: IN is the read of GETC with the prompt before it and the echo behind it. -/
theorem inPromptsReadsAndEchoes : Obligations.InPromptsReadsAndEchoes := by
  refine fun s => ⟨fun c rest hk => ⟨_, exec_in s, ?_⟩, fun hk => ?_⟩
  · obtain ⟨hr0, hregs, hkbq, hhold, hcon, hpc, hcond, hrun, hstop, hmem⟩ :=
      readCharThen_finishes (h := .in_) (s := consoleWriteAll prompt s) hk
    exact ⟨hr0, hregs, hkbq, hcon, hpc, hcond, hrun, hstop, hhold, hmem⟩
  · rw [exec_in, readCharThen_empty (s := consoleWriteAll prompt s) hk]
    rfl

/-- Settles O33: OUT prints one code. -/
theorem outWritesTheLowByteOfR0 : Obligations.OutWritesTheLowByteOfR0 :=
  fun s => ⟨_, exec_out s, rfl, consoleWriteAll_only _ s⟩

/-- Settles O37: HALT prints its line and stops the core. -/
theorem haltWritesItsLineAndStops : Obligations.HaltWritesItsLineAndStops :=
  fun s => ⟨_, exec_halt s, rfl, rfl, rfl, fun _ _ => rfl, rfl, rfl, rfl, rfl, fun _ => rfl⟩

end Sys2Proof.Proofs
end

section
/-! The statements of the family 60_exceptions.md. -/

namespace Sys2Proof.Proofs

open Sys2Proof.Machine Sys2Proof.Laws

/-- Settles O7: the next state is the fetch with the stop recorded on it, and in a halted core there is no step. -/
theorem decodeErrorStopsTheCore : Obligations.DecodeErrorStopsTheCore := by
  intro s r hr hh hd
  have hstep := step_reject hr hh hd
  rw [fetch_state] at hstep
  exact ⟨_, hstep, rfl, rfl, rfl, memRead_keepsRegs _ s, memRead_cond _ s, memRead_con _ s, memRead_hold _ s,
    memRead_afterRead _ s, fun _ hu => Bool.false_ne_true (run_of_step hu)⟩

end Sys2Proof.Proofs
end

section
/-! SUPPORT. Loading in the words of its rules: the image that fits, the image that does not, and a list with one
such image in it. -/

namespace Sys2Proof.Proofs

open Sys2Proof.Machine Sys2Proof.Laws

/-! ### One image (R203 to R205) -/

theorem longEnough_wholeWords_iff (b : Image) :
    (Image.longEnough b && Image.wholeWords b) = true ↔ ¬ (b.length < 2 ∨ b.length % 2 = 1) := by
  simp only [Image.longEnough, Image.wholeWords, Bool.and_eq_true, decide_eq_true_eq]
  omega

theorem image_wf_eq_false_iff (b : Image) : Image.wf b = false ↔ b.length < 2 ∨ b.length % 2 = 1 ∨
    65536 < ((b.getD 0 0).toNat * 256 + (b.getD 1 0).toNat) + (b.length / 2 - 1) := by
  rw [Image.wf, Bool.and_eq_false_iff, ← Bool.not_eq_true, longEnough_wholeWords_iff, not_not, ← or_assoc]
  refine or_congr_right' fun hwhole => ?_
  rw [Image.insideMemory, decide_eq_false_iff_not, origin_toNat (by omega), Config.addressCount, not_le]

/-- An image that fits is loaded: its words stand at their places, and every other word is as before (R203). -/
theorem loadImage_fits {b : Image} (m : Memory) {origin : Nat}
    (horigin : (b.getD 0 0).toNat * 256 + (b.getD 1 0).toNat = origin)
    (hlong : 2 ≤ b.length) (heven : b.length % 2 = 0) (hfits : origin + (b.length / 2 - 1) ≤ 65536) :
    ∃ m', loadImage b m = .memory m' ∧
      (∀ k, 1 ≤ k → k < b.length / 2 → Memory.read m' (origin + (k - 1)) =
        BitVec.ofNat 16 ((b.getD (2 * k) 0).toNat * 256 + (b.getD (2 * k + 1) 0).toNat)) ∧
      (∀ a : Nat, a < origin ∨ origin + (b.length / 2 - 1) ≤ a → Memory.read m' a = Memory.read m a) := by
  have hwf : Image.wf b = true := Bool.ne_false_iff.mp fun h => by
    have hbad := (image_wf_eq_false_iff b).mp h
    omega
  refine ⟨_, loadImage_wf m hwf, ?_⟩
  rw [origin_toNat hlong, horigin]
  exact ⟨fun _ => storedImage_read b origin m, fun _ => storedImage_read_outside b origin m⟩

/-- Any other image is refused over every memory, as malformed before anything else (R204, R205). -/
theorem loadImage_refused {b : Image} (m : Memory) (hbad : Image.wf b = false) :
    loadImage b m = .failed (if b.length < 2 ∨ b.length % 2 = 1 then .malformed else .pastTop) := by
  simp only [loadImage_not_wf m hbad, longEnough_wholeWords_iff, ite_not]

/-! ### A list of images (D16) -/

theorem boot_failed {images : List Image} {e : LoadError} (h : loadImages images State.constructed.mem = .failed e)
    (start : Word) (keys : List Byte) : boot images start keys = .failed e := by
  rw [boot, h]

theorem loadImages_append_loaded {before : List Image} {m m' : Memory} (h : loadImages before m = .memory m')
    (after : List Image) : loadImages (before ++ after) m = loadImages after m' := by
  rw [loadImages_append, h]

theorem loadImages_append_failed {before : List Image} {m : Memory} {e : LoadError}
    (h : loadImages before m = .failed e) (after : List Image) : loadImages (before ++ after) m = .failed e := by
  rw [loadImages_append, h]

theorem loadImages_singleton_loaded {b : Image} {m m' : Memory} (h : loadImage b m = .memory m') :
    loadImages [b] m = .memory m' := by
  simp only [loadImages, h]

/-- The images behind one that is refused are never looked at. -/
theorem loadImages_cons_failed {b : Image} {m : Memory} {e : LoadError} (h : loadImage b m = .failed e)
    (after : List Image) : loadImages (b :: after) m = .failed e := by
  rw [loadImages, h]

end Sys2Proof.Proofs
end

section
/-! The statements of the family 70_reset_and_hazards.md. -/

namespace Sys2Proof.Proofs

open Sys2Proof.Machine Sys2Proof.Laws

/-- Settles O59: the last image is loaded over the memory that the earlier ones leave. -/
theorem bootAppliesImagesInOrder : Obligations.BootAppliesImagesInOrder := by
  intro start keys
  refine ⟨rfl, ?_⟩
  intro earlier b s byte origin hs hlong heven hfits
  obtain ⟨m, hm, rfl⟩ := boot_ready_iff.mp hs
  obtain ⟨m', hm', hwords, helse⟩ := loadImage_fits m (origin := origin) rfl hlong heven hfits
  have hall : loadImages (earlier ++ [b]) State.constructed.mem = .memory m' :=
    (loadImages_append_loaded hm [b]).trans (loadImages_singleton_loaded hm')
  exact ⟨_, boot_ready_iff.mpr ⟨m', hall, rfl⟩, hwords, helse, fun _ _ => rfl, rfl, rfl, ⟨rfl, rfl, rfl⟩, rfl, rfl⟩

/-- Settles O60, by whether the images before the bad one load. -/
theorem oneBadImageGivesNoLaunch : Obligations.OneBadImageGivesNoLaunch := by
  intro before after b start keys hbad
  have hfails {m : Memory} (hm : loadImages before State.constructed.mem = .memory m) :=
    boot_failed ((loadImages_append_loaded hm (b :: after)).trans
      (loadImages_cons_failed (loadImage_refused m ((image_wf_eq_false_iff b).mpr hbad)) after)) start keys
  constructor
  · cases hbefore : loadImages before State.constructed.mem with
    | memory m => exact ⟨_, hfails hbefore⟩
    | failed e => exact ⟨e, boot_failed (loadImages_append_failed hbefore _) start keys⟩
  · intro s hs
    obtain ⟨m, hm, -⟩ := boot_ready_iff.mp hs
    exact hfails hm

/-- Settles O56: the image is the last of a list of one, and it is loaded over a memory of zeros. -/
theorem bootPlacesTheImageBigEndian : Obligations.BootPlacesTheImageBigEndian := by
  intro b start keys byte origin hlong heven hfits
  obtain ⟨hnone, hone⟩ := bootAppliesImagesInOrder start keys
  obtain ⟨t, ht, hwords, helse, hregs, hpc, hcond, ⟨hrun, hstop, hhold⟩, hkbq, hcon⟩ :=
    hone [] b _ hnone hlong heven hfits
  exact ⟨t, ht, hwords, helse, hregs, hpc, hcond, hrun, hstop, hkbq, hcon, hhold⟩

/-- Settles O57: the image is the bad one of a list of one. -/
theorem malformedImageIsNotLaunched : Obligations.MalformedImageIsNotLaunched := by
  intro b start keys hbad
  have hfails := (oneBadImageGivesNoLaunch [] [] b start keys (by omega)).2 _ rfl
  rwa [if_pos hbad] at hfails

/-- Settles O58: the image is the bad one of a list of one, and it is not malformed. -/
theorem imagePastTheTopIsRefused : Obligations.ImagePastTheTopIsRefused := by
  intro b start keys hlong heven hpast
  have hfails := (oneBadImageGivesNoLaunch [] [] b start keys (.inr (.inr hpast))).2 _ rfl
  rwa [if_neg (by omega)] at hfails

/-- Settles O18: no bit of the mask meets a zero COND, and the mask 111 meets each of the three codes. -/
theorem noBrIsTakenBeforeTheFirstFlagUpdate : Obligations.NoBrIsTakenBeforeTheFirstFlagUpdate := by
  intro offset9 s
  constructor
  · intro hzero nzp
    rw [exec_br, hzero, if_neg (by simp)]
    rfl
  · intro hcode
    rw [exec_br, if_pos]
    · rfl
    · rcases hcode with h | h | h <;> rw [h] <;> decide

end Sys2Proof.Proofs
end
